-- ==== Sys2Proof/Word.lean ====
section
/-! DEFINITION. The machine's data types of fixed width (00_scope.md R5, R14; 10_state.md R20). -/

namespace Sys2Proof

/-- A memory byte. -/
abbrev Byte := BitVec 8

/-- FEX's Word: 16-bit unsigned, wrapping modulo 65536 (R5, R170). Also an address. -/
abbrev Word := BitVec 16

/-- The stack pointer's domain 0x0000..0x7FFF, held in 15 bits (R20, R26). -/
abbrev StackPtr := BitVec 15

end Sys2Proof
end

