-- ==== Sys2Proof/Machine/Flags.lean ====
section
/-! DEFINITION. The Flags byte: what CMP computes and what the jumps test (10_state.md R37 to R39, 42_alu.md R169,
43_control_transfer.md R180). -/

namespace Sys2Proof.Machine

/-- The six jump kinds (R180). -/
inductive JumpKind where
  | equal | notEqual | greaterThan | lessThan | greaterThanOrEqualTo | lessThanOrEqualTo
deriving DecidableEq, Repr

/-- `PAT(kind)`, the literal 3-bit pattern (R180). -/
def JumpKind.pattern : JumpKind → BitVec 3
  | .equal => 0b001#3
  | .notEqual => 0b000#3
  | .greaterThan => 0b010#3
  | .lessThan => 0b100#3
  | .greaterThanOrEqualTo => 0b011#3
  | .lessThanOrEqualTo => 0b101#3

/-- `Flags[2:0]` (R37). -/
def comparison (flags : Byte) : BitVec 3 := flags.extractLsb' 0 3

/-- `cond(kind) = ((Flags & 7) = PAT(kind))` (R180): all three bits at once. -/
def condition (kind : JumpKind) (flags : Byte) : Bool := comparison flags == kind.pattern

/-- The comparison bits of the words `a`, `b`: Equal, GreaterThan or LessThan, unsigned (R169, R171). -/
def compareBits (a b : Word) : Byte :=
  if a = b then 0b001#8 else if b.toNat < a.toNat then 0b010#8 else 0b100#8

/-- `(Flags & 0xF8) | c`: bits 7..3 kept, bits 2..0 replaced (R169). -/
def compareFlags (flags : Byte) (a b : Word) : Byte := (flags &&& 0xF8#8) ||| compareBits a b

end Sys2Proof.Machine
end

