-- ==== Sys2Proof/Machine/Bytes.lean ====
section
/-! DEFINITION. Byte order: everything wider than a byte is little-endian (20_memory.md R76). -/

namespace Sys2Proof.Machine

/-- `v[7:0]`, the byte stored at the lower address (R76). -/
def loByte (v : Word) : Byte := v.setWidth 8

/-- `v[15:8]`, the byte stored at the successor (R76). -/
def hiByte (v : Word) : Byte := (v >>> 8).setWidth 8

/-- The word whose low byte is `lo` and high byte `hi`: `lo | (hi << 8)` (R64, R74, R105). -/
def wordOf (lo hi : Byte) : Word := hi ++ lo

end Sys2Proof.Machine
end

