-- ==== Sys2Proof/Syntax.lean ====
section
/-! DEFINITION. The instruction set as syntax: registers, operation identifiers, operand kinds, and
one constructor of `Instr` per row of spec/opcode_table.json (30_encoding.md R100 to R112). -/

namespace Sys2Proof

/-- The eight indexed registers, in index order 0 to 7 (10_state.md R22). -/
inductive Reg where
  | A | B | X | Y | SP | IP | BankNum | Flags
deriving DecidableEq, Repr

/-- The operand kinds of R101. -/
inductive OperandKind where
  | none | register | registerPair | immediateOrAddress
deriving DecidableEq, Repr

/-- The 34 operation identifiers, one per row of the decode table (R110). -/
inductive Operation where
  | nop | imm | mov | lda | ldb | sta | stb | push | pop
  | add | sub | mul | div | and | or | xor | not | cmp
  | jeAddr | jneAddr | jgtAddr | jltAddr | jgeAddr | jleAddr
  | jeReg | jneReg | jgtReg | jltReg | jgeReg | jleReg
  | writeAddr | writeReg | readAddr | readReg
deriving DecidableEq, Repr

/-- An instruction: an operation with its operands. A Register operand is the whole operand byte, since
8..255 are decoded and fault only when used (R102). A RegisterPair names two registers outright (R103). -/
inductive Instr where
  | nop
  | imm (r : Byte) (v : Word)
  | mov (dst src : Reg)
  | lda (r : Byte)
  | ldb (r : Byte)
  | sta (r : Byte)
  | stb (r : Byte)
  | push (r : Byte)
  | pop (r : Byte)
  | add
  | sub
  | mul
  | div
  | and
  | or
  | xor
  | not
  | cmp
  | jeAddr (t : Word)
  | jneAddr (t : Word)
  | jgtAddr (t : Word)
  | jltAddr (t : Word)
  | jgeAddr (t : Word)
  | jleAddr (t : Word)
  | jeReg (r : Byte)
  | jneReg (r : Byte)
  | jgtReg (r : Byte)
  | jltReg (r : Byte)
  | jgeReg (r : Byte)
  | jleReg (r : Byte)
  | writeAddr (t : Word)
  | writeReg (r : Byte)
  | readAddr (t : Word)
  | readReg (r : Byte)
deriving DecidableEq, Repr

/-- The operation an instruction performs. -/
def Instr.operation : Instr → Operation
  | .nop => .nop
  | .imm _ _ => .imm
  | .mov _ _ => .mov
  | .lda _ => .lda
  | .ldb _ => .ldb
  | .sta _ => .sta
  | .stb _ => .stb
  | .push _ => .push
  | .pop _ => .pop
  | .add => .add
  | .sub => .sub
  | .mul => .mul
  | .div => .div
  | .and => .and
  | .or => .or
  | .xor => .xor
  | .not => .not
  | .cmp => .cmp
  | .jeAddr _ => .jeAddr
  | .jneAddr _ => .jneAddr
  | .jgtAddr _ => .jgtAddr
  | .jltAddr _ => .jltAddr
  | .jgeAddr _ => .jgeAddr
  | .jleAddr _ => .jleAddr
  | .jeReg _ => .jeReg
  | .jneReg _ => .jneReg
  | .jgtReg _ => .jgtReg
  | .jltReg _ => .jltReg
  | .jgeReg _ => .jgeReg
  | .jleReg _ => .jleReg
  | .writeAddr _ => .writeAddr
  | .writeReg _ => .writeReg
  | .readAddr _ => .readAddr
  | .readReg _ => .readReg

/-- The Register operand byte of an instruction that has one (R102). -/
def Instr.registerOperand : Instr → Option Byte
  | .imm r _ => some r
  | .lda r | .ldb r | .sta r | .stb r | .push r | .pop r => some r
  | .jeReg r | .jneReg r | .jgtReg r | .jltReg r | .jgeReg r | .jleReg r => some r
  | .writeReg r | .readReg r => some r
  | .nop | .mov _ _ | .add | .sub | .mul | .div | .and | .or | .xor | .not | .cmp => none
  | .jeAddr _ | .jneAddr _ | .jgtAddr _ | .jltAddr _ | .jgeAddr _ | .jleAddr _ => none
  | .writeAddr _ | .readAddr _ => none

end Sys2Proof
end

