-- ==== Sys2Proof/Config.lean ====
section
/-! DEFINITION. What is fixed for one machine (the parameters of 00_scope.md R5), and the free values: what the
spec leaves open has an opaque constant here, so that no proof can see its value. -/

namespace Sys2Proof

/-- The two ROM-sourcing variants, "fixed at startup" (R5). -/
inductive RomVariant where
  | preloaded | streaming
deriving DecidableEq, Repr

/-- ROMFILE, "the finite byte sequence supplied as the ROM image file" (R5, R8): its length and, by offset, its
bytes other than 0x00. A byte at an offset below `size` that `cells` does not list is 0x00. -/
structure RomFile where
  size : Nat
  cells : List Host.Cell
deriving DecidableEq, Repr

/-- OPMOD and OPTAB (R5, R107, R112): the modulus and the operation at each index. -/
structure DecodeTable where
  opmod : Nat
  ops : List Operation
deriving DecidableEq, Repr

/-- The parameters of R5. They never change while the machine runs. RAM_INIT is given as the RAM bytes other
than 0x00. -/
structure Config where
  variant : RomVariant
  romFile : RomFile
  nbanks : Nat
  imageSize : Nat
  table : DecodeTable
  resetIP : Word
  ramInit : List Host.Cell
deriving DecidableEq, Repr

/-- RAM_SIZE, 32768 (R5). -/
def ramSize : Nat := 0x8000

/-- BANK_SIZE, 32768 (R5). -/
def bankSize : Nat := 0x8000

/-- An empty ROM file. -/
def RomFile.empty : RomFile := { size := 0, cells := [] }

/-- R112's conditions on the table: total on 0..OPMOD-1, with a nonzero modulus. -/
def DecodeTable.admissible (t : DecodeTable) : Bool := 0 < t.opmod && t.opmod ≤ t.ops.length

/-- SHORT_FILL (R5, R70): the byte of the window that the file does not supply, by the number of the refill and
the offset. A free value: "an arbitrary value chosen at the refill and fixed until the next refill" (log entry 7). -/
opaque Config.shortFill : Nat → Nat → Byte

/-- The string the environment supplies to a waiting READ when the state lists none, by the number of the
draw. A free value: "chosen by the environment and ... constrained by nothing" (R205, log entry 8). -/
opaque Config.inputText : Nat → List Byte

end Sys2Proof
end

