-- ==== Sys2Proof/WellFormed.lean ====
section
/-! DEFINITION. Which instructions are well formed: legal register indices (30_encoding.md R102, R115) and an
operation that some opcode byte selects (R109). An instruction with an illegal index still decodes and still has
a meaning: it faults. -/

namespace Sys2Proof

/-- The Register operand byte, if there is one, is in 0..7 (R102). -/
def Instr.registersLegal (i : Instr) : Bool :=
  match i.registerOperand with
  | none => true
  | some r => r.toNat < 8

/-- The operations that some opcode byte selects: the rows below OPMOD, and no more than the 256 bytes reach (R107). -/
def DecodeTable.reachable (t : DecodeTable) : List Operation := t.ops.take (min t.opmod 256)

/-- Some opcode byte selects the instruction's operation (R109). -/
def Instr.encodable (t : DecodeTable) (i : Instr) : Bool := t.reachable.contains i.operation

/-- Well formed under the table: encodable and with legal register indices. -/
def Instr.wellFormed (t : DecodeTable) (i : Instr) : Bool := i.encodable t && i.registersLegal

end Sys2Proof
end

