-- ==== Sys2Proof/Decode.lean ====
section
/-! DEFINITION. From bytes to instructions and back (30_encoding.md R100 to R119): the reference table, the
operand kinds and lengths, the decode function shared by execution and disassembly, the encoder, the decoder over a
byte window, and the assembler's forms. -/

namespace Sys2Proof

open Sys2Proof.Machine (loByte hiByte wordOf)

/-- The reference decode table (R110): 34 rows in index order, of which OPMOD = 33 selects the first 33 (R109). -/
def referenceTable : DecodeTable where
  opmod := 33
  ops := [.nop, .imm, .mov, .lda, .ldb, .sta, .stb, .push, .pop,
    .add, .sub, .mul, .div, .and, .or, .xor, .not, .cmp,
    .jeAddr, .jneAddr, .jgtAddr, .jltAddr, .jgeAddr, .jleAddr,
    .jeReg, .jneReg, .jgtReg, .jltReg, .jgeReg, .jleReg,
    .writeAddr, .writeReg, .readAddr, .readReg]

/-- How many bytes an operand of the kind takes (R101). -/
def OperandKind.bytes : OperandKind → Nat
  | .none => 0
  | .register => 1
  | .registerPair => 1
  | .immediateOrAddress => 2

/-- The operand kinds of an operation, first and second (R110). -/
def Operation.kinds : Operation → OperandKind × OperandKind
  | .nop | .add | .sub | .mul | .div | .and | .or | .xor | .not | .cmp => (.none, .none)
  | .imm => (.register, .immediateOrAddress)
  | .mov => (.registerPair, .none)
  | .lda | .ldb | .sta | .stb | .push | .pop => (.register, .none)
  | .jeAddr | .jneAddr | .jgtAddr | .jltAddr | .jgeAddr | .jleAddr => (.immediateOrAddress, .none)
  | .jeReg | .jneReg | .jgtReg | .jltReg | .jgeReg | .jleReg => (.register, .none)
  | .writeAddr | .readAddr => (.immediateOrAddress, .none)
  | .writeReg | .readReg => (.register, .none)

/-- "Total encoded length = 1 + byte-count(first operand) + byte-count(second operand)" (R100). -/
def Operation.length (op : Operation) : Nat := 1 + op.kinds.1.bytes + op.kinds.2.bytes

/-- The encoded length of an instruction in bytes (R100). -/
def Instr.length (i : Instr) : Nat := i.operation.length

/-- The index of a register (10_state.md R22). -/
def Reg.index : Reg → Nat
  | .A => 0
  | .B => 1
  | .X => 2
  | .Y => 3
  | .SP => 4
  | .IP => 5
  | .BankNum => 6
  | .Flags => 7

/-- The register of an index, none outside 0..7 (10_state.md R22, R29). -/
def Reg.ofIndex? : Nat → Option Reg
  | 0 => some .A
  | 1 => some .B
  | 2 => some .X
  | 3 => some .Y
  | 4 => some .SP
  | 5 => some .IP
  | 6 => some .BankNum
  | 7 => some .Flags
  | _ => none

/-- The register a Register operand byte names: "the whole byte", no masking (R102). -/
def Reg.ofByte? (r : Byte) : Option Reg := Reg.ofIndex? r.toNat

/-- The register of a 3-bit field (R103): every value names one. -/
def Reg.ofField (f : BitVec 3) : Reg := (Reg.ofIndex? f.toNat).getD .A

/-- `dst = p[2:0]` of a RegisterPair byte (R103). -/
def pairDst (p : Byte) : Reg := Reg.ofField (p.extractLsb' 0 3)

/-- `src = p[5:3]` of a RegisterPair byte; bits 7..6 are ignored (R103). -/
def pairSrc (p : Byte) : Reg := Reg.ofField (p.extractLsb' 3 3)

/-- The RegisterPair byte `(src<<3)|dst`, bits 7..6 written as 0 (R101, R103). -/
def pairByte (dst src : Reg) : Byte := BitVec.ofNat 8 (src.index * 8 + dst.index)

/-- Why bytes do not decode. -/
inductive DecodeError where
  /-- The byte window ends before the instruction does (R119). -/
  | outOfRange
  /-- OPTAB has no operation at the selected index: the table is not one R112 admits. -/
  | noOperation (index : Nat)
deriving DecidableEq, Repr

/-- What decoding answers: an instruction and the bytes after it, or a rejection by name. -/
abbrev Decoded := Except DecodeError (Instr × List Byte)

/-- `OPTAB[b0 mod OPMOD]` (R107). -/
def DecodeTable.lookup (t : DecodeTable) (b0 : Byte) : Option Operation := t.ops[b0.toNat % t.opmod]?

/-- Format F0: no operand bytes (R106). -/
def formatF0 (i : Instr) (rest : List Byte) : Decoded := .ok (i, rest)

/-- Format FR: one Register byte (R106). -/
def formatFR (mk : Byte → Instr) : List Byte → Decoded
  | b1 :: rest => .ok (mk b1, rest)
  | _ => .error .outOfRange

/-- Format FP: one RegisterPair byte (R106). -/
def formatFP (mk : Reg → Reg → Instr) : List Byte → Decoded
  | b1 :: rest => .ok (mk (pairDst b1) (pairSrc b1), rest)
  | _ => .error .outOfRange

/-- Format FI: one little-endian word (R105, R106). -/
def formatFI (mk : Word → Instr) : List Byte → Decoded
  | b1 :: b2 :: rest => .ok (mk (wordOf b1 b2), rest)
  | _ => .error .outOfRange

/-- Format FRI: one Register byte, then one little-endian word (R106). -/
def formatFRI (mk : Byte → Word → Instr) : List Byte → Decoded
  | b1 :: b2 :: b3 :: rest => .ok (mk b1 (wordOf b2 b3), rest)
  | _ => .error .outOfRange

/-- The operands of an operation, read from the bytes after its opcode byte (R110). -/
def decodeOperands : Operation → List Byte → Decoded
  | .nop => formatF0 .nop
  | .imm => formatFRI .imm
  | .mov => formatFP .mov
  | .lda => formatFR .lda
  | .ldb => formatFR .ldb
  | .sta => formatFR .sta
  | .stb => formatFR .stb
  | .push => formatFR .push
  | .pop => formatFR .pop
  | .add => formatF0 .add
  | .sub => formatF0 .sub
  | .mul => formatF0 .mul
  | .div => formatF0 .div
  | .and => formatF0 .and
  | .or => formatF0 .or
  | .xor => formatF0 .xor
  | .not => formatF0 .not
  | .cmp => formatF0 .cmp
  | .jeAddr => formatFI .jeAddr
  | .jneAddr => formatFI .jneAddr
  | .jgtAddr => formatFI .jgtAddr
  | .jltAddr => formatFI .jltAddr
  | .jgeAddr => formatFI .jgeAddr
  | .jleAddr => formatFI .jleAddr
  | .jeReg => formatFR .jeReg
  | .jneReg => formatFR .jneReg
  | .jgtReg => formatFR .jgtReg
  | .jltReg => formatFR .jltReg
  | .jgeReg => formatFR .jgeReg
  | .jleReg => formatFR .jleReg
  | .writeAddr => formatFI .writeAddr
  | .writeReg => formatFR .writeReg
  | .readAddr => formatFI .readAddr
  | .readReg => formatFR .readReg

/-- The decode function (R100, R107): "pure, stateless", total on any bytes, used by execution and disassembly alike. -/
def decode (t : DecodeTable) : List Byte → Decoded
  | [] => .error .outOfRange
  | b0 :: rest =>
    match t.lookup b0 with
    | some op => decodeOperands op rest
    | none => .error (.noOperation (b0.toNat % t.opmod))

/-- The operand bytes of an instruction (R101, R105, R106). -/
def operandBytes : Instr → List Byte
  | .nop | .add | .sub | .mul | .div | .and | .or | .xor | .not | .cmp => []
  | .imm r v => [r, loByte v, hiByte v]
  | .mov dst src => [pairByte dst src]
  | .lda r | .ldb r | .sta r | .stb r | .push r | .pop r => [r]
  | .jeAddr t | .jneAddr t | .jgtAddr t | .jltAddr t | .jgeAddr t | .jleAddr t => [loByte t, hiByte t]
  | .jeReg r | .jneReg r | .jgtReg r | .jltReg r | .jgeReg r | .jleReg r => [r]
  | .writeAddr t | .readAddr t => [loByte t, hiByte t]
  | .writeReg r | .readReg r => [r]

/-- The canonical opcode byte of an operation's index (R108); none where no byte selects the operation (R109). DESIGN
CHOICE (log entry 41, unsafe): R112 lets a table hold one operation at several indices and the spec does not say which
index an encoder takes; here the least. The reference table holds each operation once. -/
def DecodeTable.opcodeByte (t : DecodeTable) (op : Operation) : Option Byte :=
  (t.reachable.idxOf? op).map (BitVec.ofNat 8)

/-- The bytes of an instruction under a decode table; none where the operation has no opcode byte (R117). -/
def encodeWith (t : DecodeTable) (i : Instr) : Option (List Byte) :=
  (t.opcodeByte i.operation).map (· :: operandBytes i)

/-- The bytes of an instruction under the reference table (R110). -/
def encode (i : Instr) : Option (List Byte) := encodeWith referenceTable i

/-- Byte `k` of a word whose byte 0 holds its bits 7..0. -/
def byteAt (w k : Nat) : Byte := BitVec.ofNat 8 (w >>> (8 * k))

/-- The four bytes from which an instruction is read, the first at the lowest address, of a word of `nbits` bits:
every bit above `nbits` is 0. -/
def fetchWordBytes (nbits w : Nat) : List Byte :=
  let v := w % 2 ^ nbits
  [byteAt v 0, byteAt v 1, byteAt v 2, byteAt v 3]

/-- The instruction the decoder reads, under the reference table, from an instruction whose bits are `w`. -/
def decodeTableWord (nbits w : Nat) : Option Instr :=
  match decode referenceTable (fetchWordBytes nbits w) with
  | .ok (i, _) => some i
  | .error _ => none

/-- The DecodedInstruction record (00_scope.md R19): ephemeral, produced per decode call, no state (10_state.md R21). -/
structure DecodedInstruction where
  source : Word
  opcode : Byte
  operation : Operation
  kinds : OperandKind × OperandKind
  operands : List Byte
  length : Nat
deriving DecidableEq, Repr

/-- One record of a disassembly (R119). DESIGN CHOICE (log entry 36, unsafe): what a placeholder holds, which the spec
says is not given (N14), is here the source address and the one byte. -/
inductive DisassemblyRecord where
  | instruction (d : DecodedInstruction)
  /-- The one-byte "out of range" placeholder; its two fields are the model's choice (log entry 36). -/
  | outOfRange (source : Word) (byte : Byte)
  /-- A byte at whose index OPTAB has no operation; none under a table R112 admits. -/
  | noOperation (source : Word) (byte : Byte)
deriving DecidableEq, Repr

/-- The records of a byte window that starts at address `source`, at most `fuel` of them (R119). Where a placeholder
stands for one byte, the next record starts at the byte after it (log entry 36). -/
def disassembleFrom (t : DecodeTable) : Nat → Word → List Byte → List DisassemblyRecord
  | 0, _, _ => []
  | _ + 1, _, [] => []
  | fuel + 1, source, b0 :: rest =>
    match decode t (b0 :: rest) with
    | .ok (i, rest') =>
      .instruction
        { source := source
          opcode := b0
          operation := i.operation
          kinds := i.operation.kinds
          operands := rest.take (i.length - 1)
          length := i.length } ::
        disassembleFrom t fuel (source + BitVec.ofNat 16 i.length) rest'
    | .error .outOfRange => .outOfRange source b0 :: disassembleFrom t fuel (source + 1#16) rest
    | .error (.noOperation _) => .noOperation source b0 :: disassembleFrom t fuel (source + 1#16) rest

/-- The disassembly of a whole window: "a full, deterministic set of records" (R119). -/
def disassemble (t : DecodeTable) (source : Word) (window : List Byte) : List DisassemblyRecord :=
  disassembleFrom t window.length source window

/-- An operand as an assembler line writes it (R117): a register by its index byte, or a number. -/
inductive AsmOperand where
  | register (index : Byte)
  | number (value : Word)
deriving DecidableEq, Repr

/-- A register name of the assembler's grammar (R117); `r<n>` names the index byte itself. -/
def Reg.asm (r : Reg) : AsmOperand := .register (BitVec.ofNat 8 r.index)

/-- Operations without an operand, by mnemonic (R117). -/
def assembleF0 (mnemonic : String) : Option Instr :=
  match mnemonic with
  | "NOP" => some .nop
  | "ADD" => some .add
  | "SUB" => some .sub
  | "MUL" => some .mul
  | "DIV" => some .div
  | "AND" => some .and
  | "OR" => some .or
  | "XOR" => some .xor
  | "NOT" => some .not
  | "CMP" => some .cmp
  | _ => none

/-- Operations with one register, by mnemonic (R117). -/
def assembleFR (mnemonic : String) (r : Byte) : Option Instr :=
  match mnemonic with
  | "LDA" => some (.lda r)
  | "LDB" => some (.ldb r)
  | "STA" => some (.sta r)
  | "STB" => some (.stb r)
  | "PUSH" => some (.push r)
  | "POP" => some (.pop r)
  | "JE" => some (.jeReg r)
  | "JNE" => some (.jneReg r)
  | "JGT" => some (.jgtReg r)
  | "JLT" => some (.jltReg r)
  | "JGE" => some (.jgeReg r)
  | "JLE" => some (.jleReg r)
  | "WRITE" => some (.writeReg r)
  | "READ" => some (.readReg r)
  | _ => none

/-- Operations with one number, by mnemonic (R117). -/
def assembleFI (mnemonic : String) (t : Word) : Option Instr :=
  match mnemonic with
  | "JE" => some (.jeAddr t)
  | "JNE" => some (.jneAddr t)
  | "JGT" => some (.jgtAddr t)
  | "JLT" => some (.jltAddr t)
  | "JGE" => some (.jgeAddr t)
  | "JLE" => some (.jleAddr t)
  | "WRITE" => some (.writeAddr t)
  | "READ" => some (.readAddr t)
  | _ => none

/-- One assembler line (R117): the operand selects between the two forms of a jump, WRITE and READ (R111); MOV's
destination comes first. -/
def assemble (mnemonic : String) (operands : List AsmOperand) : Option Instr :=
  match operands with
  | [] => assembleF0 mnemonic
  | [.register r] => assembleFR mnemonic r
  | [.number t] => assembleFI mnemonic t
  | [.register r, .number v] => if mnemonic = "IMM" then some (.imm r v) else none
  | [.register d, .register s] =>
    if mnemonic = "MOV" then
      match Reg.ofByte? d, Reg.ofByte? s with
      | some dst, some src => some (.mov dst src)
      | _, _ => none
    else none
  | _ => none

end Sys2Proof
end

