-- ==== Sys2Proof/Machine/Memory.lean ====
section
/-! DEFINITION. Byte stores as lists of (address, byte) pairs in one canonical form: addresses strictly rising and
no entry equal to 0x00, which is what an unlisted address reads as (log entry 5). RAM, the ROM file and the active
bank buffer are held this way. -/

namespace Sys2Proof.Machine

/-- A sparse byte store. -/
abbrev Memory := List Host.Cell

/-- What an address that no entry lists reads as: RAM_INIT's 0x00 (10_state.md R44). -/
def unlistedByte : Byte := 0x00#8

/-- The byte at an address. -/
def Memory.read : Memory → Nat → Byte
  | [], _ => unlistedByte
  | (k, v) :: m, a => if k = a then v else Memory.read m a

/-- Put an entry in front of a store whose addresses are all higher; the unlisted value makes no entry. -/
def Memory.put (a : Nat) (v : Byte) (m : Memory) : Memory := if v = unlistedByte then m else (a, v) :: m

/-- Store a byte, keeping the canonical form. -/
def Memory.write : Memory → Nat → Byte → Memory
  | [], a, v => Memory.put a v []
  | (k, w) :: m, a, v =>
    if a < k then Memory.put a v ((k, w) :: m)
    else if a = k then Memory.put a v m
    else (k, w) :: Memory.write m a v

/-- The canonical form, with every address in `lo .. hi - 1`. -/
def Memory.within (lo hi : Nat) : Memory → Bool
  | [] => true
  | (k, v) :: m => lo ≤ k && k < hi && v != unlistedByte && Memory.within (k + 1) hi m

/-- RAM's form: canonical, with addresses below RAM_SIZE (20_memory.md R60). -/
def Memory.wf (m : Memory) : Bool := m.within 0 ramSize

/-- The canonical store that holds the given cells, a later cell winning. -/
def Memory.ofCells (cells : List Host.Cell) : Memory :=
  cells.foldl (fun m c => if c.1 < ramSize then m.write c.1 c.2 else m) []

/-- The bytes at `base .. base + len - 1`, as a store that starts at address 0. -/
def Memory.slice (m : Memory) (base len : Nat) : Memory :=
  m.filterMap fun c => if base ≤ c.1 ∧ c.1 < base + len then some (c.1 - base, c.2) else none

end Sys2Proof.Machine
end

