-- ==== Sys2Proof/Machine/Bank.lean ====
section
/-! DEFINITION. The ROM image and its banks (20_memory.md R66 to R70), and the reference configuration (00_scope.md
R5). -/

namespace Sys2Proof

open Sys2Proof.Machine (Memory)

/-- The parameter values of R5, with an empty Preloaded ROM file: R5 leaves the variant and the file OPEN. DESIGN
CHOICE of this file and variant, unsafe for a statement about `State.reset` alone (log entry 2). -/
def Config.reference : Config where
  variant := .preloaded
  romFile := .empty
  nbanks := 16
  imageSize := 1048576
  table := referenceTable
  resetIP := 0x8000
  ramInit := []

/-- ROMFILE's form: canonical cells, all below its length. -/
def RomFile.wf (f : RomFile) : Bool := Memory.within 0 f.size f.cells

/-- `ROMFILE[i]`, none at and past its length (R66, R69). -/
def RomFile.byte? (f : RomFile) (i : Nat) : Option Byte :=
  if i < f.size then some (Memory.read f.cells i) else none

/-- The ROM file of a list of bytes. -/
def RomFile.ofBytes (bytes : List Byte) : RomFile where
  size := bytes.length
  cells := (bytes.zipIdx.filter fun c => c.1 != Machine.unlistedByte).map fun c => (c.2, c.1)

/-- The ROM file with one byte stored in it, lengthened where the offset lies past its end. -/
def RomFile.patch (f : RomFile) (i : Nat) (v : Byte) : RomFile where
  size := max f.size (i + 1)
  cells := Memory.write f.cells i v

/-- How many bytes the ROM source supplies: the whole zero-padded and truncated IMAGE (Preloaded, R66) or the file
(Streaming, R69). -/
def Config.romExtent (c : Config) : Nat :=
  match c.variant with
  | .preloaded => c.imageSize
  | .streaming => c.romFile.size

/-- `IMAGE[i]` for `i < IMAGE_SIZE` (R66): the file's byte, or 0x00 past its end. -/
def Config.imageByte (c : Config) (i : Nat) : Byte := (c.romFile.byte? i).getD 0x00#8

/-- The conditions under which R66 to R69 and R112 define every bank and every opcode: an admissible table, a ROM
file in form, and NBANKS banks (at least one) inside the image. -/
def Config.wf (c : Config) : Bool :=
  c.table.admissible && c.romFile.wf && 0 < c.nbanks && c.nbanks * bankSize ≤ c.imageSize

end Sys2Proof

namespace Sys2Proof.Machine

/-- BANKBUF, the active bank buffer (10_state.md R20): the bytes at offsets below `supplied` are those of `cells`;
the bytes from `supplied` on are SHORT_FILL's, of the refill numbered `draw` (20_memory.md R70). -/
structure BankBuf where
  cells : Memory
  supplied : Nat
  draw : Nat
deriving DecidableEq, Repr

/-- `BANKBUF[o]`. -/
def BankBuf.read (b : BankBuf) (o : Nat) : Byte :=
  if o < b.supplied then Memory.read b.cells o else Config.shortFill b.draw o

/-- The buffer with one byte of it replaced. -/
def BankBuf.patch (b : BankBuf) (o : Nat) (v : Byte) : BankBuf where
  cells := Memory.write b.cells o v
  supplied := max b.supplied (o + 1)
  draw := b.draw

/-- How many bytes of bank `n` the ROM source supplies (R67, R69, R70). -/
def bankSupplied (c : Config) (n : Nat) : Nat := min bankSize (c.romExtent - n * bankSize)

/-- `Bank(n)` (R67, R69), with the refill's draw number for the bytes the source does not supply (R70). -/
def loadBank (c : Config) (n draw : Nat) : BankBuf where
  cells := Memory.slice c.romFile.cells (n * bankSize) (bankSupplied c n)
  supplied := bankSupplied c n
  draw := draw

end Sys2Proof.Machine
end

