-- ==== Sys2Proof/Machine/State.lean ====
section
/-! DEFINITION. The machine's state as plain data (10_state.md R20, R21), its reset value (R44, R240), and the ways
a step can stop. -/

namespace Sys2Proof.Machine

/-- An event of the Trace (00_scope.md R11). -/
inductive Event where
  /-- `Output(bytes)`: the text a WRITE emits, without its zero byte (44_io.md R201). -/
  | output (text : List Byte)
  /-- `BankSwitched(bank)` (20_memory.md R68). -/
  | bankSwitched (bank : Nat)
deriving DecidableEq, Repr

/-- A READ that waits for its input (44_io.md R205): its target address, and its length for the `advanceIP(len)` of
its resumption (log entry 33). -/
structure PendingRead where
  target : Word
  len : Nat
deriving DecidableEq, Repr

/-- The complete state of the CORE (10_state.md R20), and after it the model's own fields `cfg`, `inputs` and
`draws` (log entries 1, 8, 9). -/
structure State where
  /-- Register 0. -/
  a : Word
  /-- Register 1. -/
  b : Word
  /-- Register 2. -/
  x : Word
  /-- Register 3. -/
  y : Word
  /-- Register 4, the stack pointer, 15 bits. -/
  sp : StackPtr
  /-- Register 5, the instruction pointer. -/
  ip : Word
  /-- Register 6, the bank-select byte. -/
  bankNum : Byte
  /-- Register 7: Equal, GreaterThan, LessThan in bits 0, 1, 2, and five more stored bits. -/
  flags : Byte
  /-- `RAM[0..0x7FFF]`. -/
  ram : Memory
  /-- `BANKBUF[0..0x7FFF]`. -/
  bankBuf : BankBuf
  /-- `CurBank`, the index of the bank in BANKBUF. -/
  curBank : Nat
  /-- `Halted`, set by a fault. -/
  halted : Bool
  /-- `Pending`, a READ that waits for its input. -/
  pending : Option PendingRead
  /-- `Trace`, the output of the block. -/
  trace : List Event
  /-- The parameters of 00_scope.md R5: constant, no state of the machine (R21). -/
  cfg : Config
  /-- The strings the environment has ready for the next READs, the next one first (R9, R205). -/
  inputs : List (List Byte)
  /-- How many free values have been drawn. -/
  draws : Nat
deriving DecidableEq, Repr

/-- How a step stops with no next state. The two faults of 60_exceptions.md R210 carry the state they leave, which is
the state before the step with `Halted` set (R212); both are raised as the spec says, and are safe. -/
inductive Fault where
  /-- `InvalidRegister(i)` (R210, R211): raised by an instruction that uses a Register operand byte of 8..255. Safe. -/
  | invalidRegister (index : Byte) (after : State)
  /-- `OutOfRangeBank(v)` (R210, R214): raised by a Preloaded write of a byte of NBANKS or more to BankNum, and by
  `previousBank()` at bank 0 of a Streaming machine (R73), there with -1. Safe. -/
  | outOfRangeBank (value : Int) (after : State)
  /-- Not a fault of the machine but a stuck step (44_io.md R201, U7): a WRITE from this address finds no zero byte
  in the whole address space and never completes. Safe: no next state is claimed. -/
  | writeNeverCompletes (target : Word)
deriving DecidableEq, Repr

/-- Calls that have no meaning. -/
inductive Refusal where
  /-- An instruction the model gives no meaning yet. Safe. No arm of `exec` answers it. -/
  | notModelled (mnemonic : String)
  /-- `step()` or `resumeWithInput` on a halted engine, which R213 does not allow. Safe. -/
  | halted
  /-- `resumeWithInput` while no READ waits, which R205 does not allow. Safe. -/
  | notPending
  /-- The opcode byte selects no operation: OPTAB is not one that R112 admits. Safe. -/
  | noOperation (opcode : Byte)
deriving DecidableEq, Repr

/-- What a step, an instruction or an operation that may fault answers. -/
abbrev Result := Host.Outcome State Fault Refusal

/-- `reset(ROM_VARIANT, ROMFILE)` (70_reset_and_hazards.md R240, 10_state.md R44). `draw` numbers the free fill of bank
0's load; `inputs` is what the environment has ready. No BankSwitched event is recorded. -/
def State.resetWith (c : Config) (draw : Nat) (inputs : List (List Byte)) : State where
  a := 0x0000#16
  b := 0x0000#16
  x := 0x0000#16
  y := 0x0000#16
  sp := 0x0000#15
  ip := c.resetIP
  bankNum := 0x00#8
  flags := 0x00#8
  ram := Memory.ofCells c.ramInit
  bankBuf := loadBank c 0 draw
  curBank := 0
  halted := false
  pending := none
  trace := []
  cfg := c
  inputs := inputs
  draws := draw + 1

/-- The machine right after start-up with a configuration. -/
def State.resetOf (c : Config) : State := State.resetWith c 0 []

/-- The machine right after reset, with the reference configuration (log entries 2 to 4). -/
def State.reset : State := State.resetOf Config.reference

/-! Named record updates. -/

def State.withA (s : State) (v : Word) : State := { s with a := v }
def State.withB (s : State) (v : Word) : State := { s with b := v }
def State.withX (s : State) (v : Word) : State := { s with x := v }
def State.withY (s : State) (v : Word) : State := { s with y := v }
def State.withSp (s : State) (v : StackPtr) : State := { s with sp := v }
def State.withIp (s : State) (v : Word) : State := { s with ip := v }
def State.withBankNum (s : State) (v : Byte) : State := { s with bankNum := v }
def State.withFlags (s : State) (v : Byte) : State := { s with flags := v }
def State.withRam (s : State) (v : Memory) : State := { s with ram := v }
def State.withPending (s : State) (v : Option PendingRead) : State := { s with pending := v }
def State.withHalted (s : State) (v : Bool) : State := { s with halted := v }

/-- `emit e` (00_scope.md R11): the trace only grows. -/
def State.emit (s : State) (e : Event) : State := { s with trace := s.trace ++ [e] }

/-- Bank `n` becomes the mapped bank, its missing bytes drawn anew (20_memory.md R68 to R70). -/
def State.mapBank (s : State) (n : Nat) : State :=
  { s with curBank := n, bankBuf := loadBank s.cfg n s.draws, draws := s.draws + 1 }

end Sys2Proof.Machine
end

