-- ==== Sys2Proof/Machine/Ops.lean ====
section
/-! DEFINITION. The named operations over registers, memory and banks that the meanings share (10_state.md R24 to
R34, 20_memory.md R61 to R75), the raising of a fault (60_exceptions.md R210 to R213), the frame that ends a step
(30_encoding.md R113), and the environment's reset and debug read (70_reset_and_hazards.md R240, 00_scope.md R12). -/

namespace Sys2Proof.Machine

/-! ## Results -/

/-- Go on from a next state; a fault or a refusal stands. -/
def andThen (r : Result) (k : State → Result) : Result :=
  match r with
  | .next s => k s
  | .fault f => .fault f
  | .refused e => .refused e

/-! ## Faults -/

/-- The state a fault leaves: `Halted <- 1` and nothing else (R212). -/
def haltedBy (s : State) : State := s.withHalted true

/-- `raise InvalidRegister(i)` (R17, R210): the step is discarded and the engine halts. There is no handler and no
return (R218, R219). -/
def raiseInvalidRegister (i : Byte) (s : State) : Result := .fault (.invalidRegister i (haltedBy s))

/-- `raise OutOfRangeBank(v)` (R17, R210, R214). -/
def raiseOutOfRangeBank (v : Int) (s : State) : Result := .fault (.outOfRangeBank v (haltedBy s))

/-! ## Memory -/

/-- `MemRead(addr, 1)` (R61). -/
def readByte (s : State) (addr : Word) : Byte :=
  if addr.toNat < ramSize then Memory.read s.ram addr.toNat else BankBuf.read s.bankBuf (addr.toNat - ramSize)

/-- `MemWrite(addr, 1, v)` (R62): a write to the ROM window is discarded. -/
def writeByte (s : State) (addr : Word) (v : Byte) : State :=
  if addr.toNat < ramSize then s.withRam (Memory.write s.ram addr.toNat v) else s

/-- `MemRead(addr, 2)` (R64): the second byte at `(addr + 1) mod 65536`. -/
def readWord (s : State) (addr : Word) : Word := wordOf (readByte s addr) (readByte s (addr + 1#16))

/-- `MemWrite(addr, 2, v)` (R65): each byte stored or discarded on its own. -/
def writeWord (s : State) (addr : Word) (v : Word) : State :=
  writeByte (writeByte s addr (loByte v)) (addr + 1#16) (hiByte v)

/-- `fillBufferFromMemory` (R12): the `length` bytes from `start` on, wrapping past 0xFFFF. -/
def debugRead (s : State) (start : Word) (length : Nat) : List Byte :=
  (List.range length).map fun k => readByte s (start + BitVec.ofNat 16 k)

/-- `fillBufferFromMemory` into the caller's buffer at an offset (R12); the state is not changed. DESIGN CHOICE (log
entry 40, unsafe): the spec gives the buffer no bound; a destination shorter than `offset + length` is lengthened, and
where `offset` lies past its end the bytes stand at its end. -/
def fillBufferFromMemory (s : State) (start : Word) (destination : List Byte) (length offset : Nat) : List Byte :=
  destination.take offset ++ debugRead s start length ++ destination.drop (offset + length)

/-! ## The stack -/

/-- `nextSP(p)`: `(p + 1) mod 0x8000` (R30). -/
def nextSP (p : StackPtr) : StackPtr := p + 1#15

/-- `prevSP(p)`: `(p - 1) mod 0x8000` (R31). -/
def prevSP (p : StackPtr) : StackPtr := p - 1#15

/-- `prevSP^2(p)` (R16). -/
def prevSP2 (p : StackPtr) : StackPtr := prevSP (prevSP p)

/-- `prevSP^4(p)` (R16). -/
def prevSP4 (p : StackPtr) : StackPtr := prevSP2 (prevSP2 p)

/-- A stack address as a memory address, always in RAM (R31). -/
def stackAddr (p : StackPtr) : Word := p.setWidth 16

/-- `StkRead(p)` (R74): the second byte at `nextSP(p)`. -/
def readStack (s : State) (p : StackPtr) : Word :=
  wordOf (readByte s (stackAddr p)) (readByte s (stackAddr (nextSP p)))

/-- `StkWrite(p, v)` (R75). -/
def writeStack (s : State) (p : StackPtr) (v : Word) : State :=
  writeByte (writeByte s (stackAddr p) (loByte v)) (stackAddr (nextSP p)) (hiByte v)

/-! ## Banks -/

/-- `switchBank(n)` (R68): `CurBank <- n`, BANKBUF refilled, `emit BankSwitched(n)`. -/
def switchBank (s : State) (n : Nat) : State := (s.mapBank n).emit (.bankSwitched n)

/-- `nextBank()` (R71, R72): modulo NBANKS when Preloaded, without bound when Streaming. BankNum keeps its value. -/
def nextBank (s : State) : State :=
  match s.cfg.variant with
  | .preloaded => switchBank s ((s.curBank + 1) % s.cfg.nbanks)
  | .streaming => switchBank s (s.curBank + 1)

/-- `previousBank()` (R71, R73). No instruction calls it (R13). -/
def previousBank (s : State) : Result :=
  match s.cfg.variant with
  | .preloaded => .next (switchBank s ((s.curBank + s.cfg.nbanks - 1) % s.cfg.nbanks))
  | .streaming =>
    match s.curBank with
    | 0 => raiseOutOfRangeBank (-1) s
    | n + 1 => .next (switchBank s n)

/-! ## The instruction pointer -/

/-- `nextIP()` (R33). -/
def nextIP (s : State) : State :=
  if s.ip = 0x7FFF#16 then s.withIp 0x0000#16
  else if s.ip = 0xFFFF#16 then
    match s.cfg.variant with
    | .preloaded => s.withIp 0x0000#16
    | .streaming => (nextBank s).withIp 0x8000#16
  else s.withIp (s.ip + 1#16)

/-- `advanceIP(n)` (R34): `nextIP()` applied `n` times, one after the other. -/
def advanceIP : Nat → State → State
  | 0, s => s
  | n + 1, s => advanceIP n (nextIP s)

/-- The end of a step whose body is no taken jump (R113): `advanceIP(len)` from whatever IP then holds. -/
def completed (len : Nat) (body : Result) : Result := andThen body fun s => .next (advanceIP len s)

/-! ## The register file -/

/-- `x[i]` (R24): SP, BankNum and Flags are zero-extended. -/
def getReg (s : State) : Reg → Word
  | .A => s.a
  | .B => s.b
  | .X => s.x
  | .Y => s.y
  | .SP => s.sp.setWidth 16
  | .IP => s.ip
  | .BankNum => s.bankNum.setWidth 16
  | .Flags => s.flags.setWidth 16

/-- A write to BankNum (R27): the byte is checked, then stored, then the bank is reloaded. -/
def setBankNum (s : State) (v : Byte) : Result :=
  match s.cfg.variant with
  | .preloaded =>
    if v.toNat < s.cfg.nbanks then .next (switchBank (s.withBankNum v) v.toNat) else raiseOutOfRangeBank v.toNat s
  | .streaming => .next (switchBank (s.withBankNum v) v.toNat)

/-- `x[i] <- v` (R25 to R28), with the truncation and the side effect of each register. -/
def setReg (s : State) (d : Reg) (v : Word) : Result :=
  match d with
  | .A => .next (s.withA v)
  | .B => .next (s.withB v)
  | .X => .next (s.withX v)
  | .Y => .next (s.withY v)
  | .SP => .next (s.withSp (v.setWidth 15))
  | .IP => .next (s.withIp v)
  | .BankNum => setBankNum s (loByte v)
  | .Flags => .next (s.withFlags (loByte v))

/-! ## Reset by the environment -/

/-- Reset of a machine that has run (R240): the only operation that clears `Halted`. The parameters and the
environment's inputs stay, and bank 0's missing bytes are drawn anew. -/
def resetMachine (s : State) : State := State.resetWith s.cfg s.draws s.inputs

end Sys2Proof.Machine
end

