-- ==== Sys2Proof/Machine/Operands.lean ====
section
/-! DEFINITION. The operand forms (30_encoding.md R101 to R105): a Register operand as destination, as source and as
address; a RegisterPair and an ImmediateOrAddress need no operation beyond the decoder's. -/

namespace Sys2Proof.Machine

/-- Use a Register operand as a register: its index is checked first, and 8..255 raises InvalidRegister before
anything changes (R102, 60_exceptions.md R211). -/
def withRegister (r : Byte) (s : State) (body : Reg → Result) : Result :=
  match Reg.ofByte? r with
  | some reg => body reg
  | none => raiseInvalidRegister r s

/-- Use a Register operand's value, a source word or an address: `x[r]` (R102, 10_state.md R24). IP reads as the
instruction's own address (10_state.md R35). -/
def withRegisterValue (r : Byte) (s : State) (body : Word → Result) : Result :=
  withRegister r s fun reg => body (getReg s reg)

end Sys2Proof.Machine
end

