-- ==== Sys2Proof/Machine/Alu.lean ====
section
/-! DEFINITION. The stack arithmetic, logic and compare instructions (42_alu.md R160 to R172). -/

namespace Sys2Proof.Machine

/-- DIV's result: the unsigned quotient, 0xFFFF where `b` is zero (R164). -/
def quotient (a b : Word) : Word := if b = 0#16 then 0xFFFF#16 else BitVec.ofNat 16 (a.toNat / b.toNat)

/-- The common body of the seven MathOperations (R160): `b` is the word just below SP, `a` the word below that; the
result replaces `a`, and SP ends two below where it was. -/
def mathOperation (f : Word → Word → Word) (s : State) : Result :=
  let pa := prevSP4 s.sp
  let b := readStack s (prevSP2 s.sp)
  let a := readStack s pa
  .next ((writeStack s pa (f a b)).withSp (nextSP (nextSP pa)))

/-- ADD (R161): `(a + b) mod 65536`. -/
def execAdd (s : State) : Result := completed 1 (mathOperation (fun a b => a + b) s)

/-- SUB (R162): `(a - b) mod 65536`. -/
def execSub (s : State) : Result := completed 1 (mathOperation (fun a b => a - b) s)

/-- MUL (R163): `(a * b) mod 65536`. -/
def execMul (s : State) : Result := completed 1 (mathOperation (fun a b => a * b) s)

/-- DIV (R164). -/
def execDiv (s : State) : Result := completed 1 (mathOperation quotient s)

/-- AND (R165). -/
def execAnd (s : State) : Result := completed 1 (mathOperation (fun a b => a &&& b) s)

/-- OR (R166). -/
def execOr (s : State) : Result := completed 1 (mathOperation (fun a b => a ||| b) s)

/-- XOR (R167). -/
def execXor (s : State) : Result := completed 1 (mathOperation (fun a b => a ^^^ b) s)

/-- NOT (R168): the word just below SP is complemented in place, and SP ends where it was. -/
def execNot (s : State) : Result :=
  let p := prevSP2 s.sp
  completed 1 (.next ((writeStack s p (~~~ readStack s p)).withSp (nextSP (nextSP p))))

/-- CMP (R169): Flags bits 2..0 take the order of `a` and `b`, SP retreats by 4, memory is not written. -/
def execCmp (s : State) : Result :=
  let b := readStack s (prevSP2 s.sp)
  let a := readStack s (prevSP4 s.sp)
  completed 1 (.next ((s.withFlags (compareFlags s.flags a b)).withSp (prevSP4 s.sp)))

end Sys2Proof.Machine
end

