-- ==== Sys2Proof/Machine/DataMovement.lean ====
section
/-! DEFINITION. NOP, IMM, MOV, LDA, LDB, STA, STB (40_data_movement.md R130 to R137). -/

namespace Sys2Proof.Machine

/-- NOP (R130). -/
def execNop (s : State) : Result := completed 1 (.next s)

/-- IMM reg, imm (R131): `x[r] <- imm`. -/
def execImm (r : Byte) (v : Word) (s : State) : Result :=
  completed 4 (withRegister r s fun d => setReg s d v)

/-- MOV dst, src (R132): `x[dst] <- x[src]`. -/
def execMov (dst src : Reg) (s : State) : Result := completed 2 (setReg s dst (getReg s src))

/-- LDA reg (R133): `A <- MemRead(x[r], 2)`. -/
def execLda (r : Byte) (s : State) : Result :=
  completed 2 (withRegisterValue r s fun addr => .next (s.withA (readWord s addr)))

/-- LDB reg (R134): `B <- MemRead(x[r], 2)`. -/
def execLdb (r : Byte) (s : State) : Result :=
  completed 2 (withRegisterValue r s fun addr => .next (s.withB (readWord s addr)))

/-- STA reg (R135): `MemWrite(x[r], 2, A)`. -/
def execSta (r : Byte) (s : State) : Result :=
  completed 2 (withRegisterValue r s fun addr => .next (writeWord s addr s.a))

/-- STB reg (R136): `MemWrite(x[r], 2, B)`. -/
def execStb (r : Byte) (s : State) : Result :=
  completed 2 (withRegisterValue r s fun addr => .next (writeWord s addr s.b))

end Sys2Proof.Machine
end

