-- ==== Sys2Proof/Machine/Jump.lean ====
section
/-! DEFINITION. The twelve conditional jumps (43_control_transfer.md R180 to R195). -/

namespace Sys2Proof.Machine

/-- The end of a jump to `t` (R113, R181): IP is the target where the condition matches, else it advances past the
instruction's `len` bytes. -/
def jumpTo (kind : JumpKind) (len : Nat) (t : Word) (s : State) : Result :=
  if condition kind s.flags then .next (s.withIp t) else completed len (.next s)

/-- A jump to the address in a register (R187): the register is read before the condition is tested, so an illegal
index faults whether or not the jump would be taken. -/
def jumpToRegister (kind : JumpKind) (r : Byte) (s : State) : Result :=
  withRegisterValue r s fun t => jumpTo kind 2 t s

/-- JE addr (R181). -/
def execJeAddr (t : Word) (s : State) : Result := jumpTo .equal 3 t s

/-- JNE addr (R182). -/
def execJneAddr (t : Word) (s : State) : Result := jumpTo .notEqual 3 t s

/-- JGT addr (R183). -/
def execJgtAddr (t : Word) (s : State) : Result := jumpTo .greaterThan 3 t s

/-- JLT addr (R184). -/
def execJltAddr (t : Word) (s : State) : Result := jumpTo .lessThan 3 t s

/-- JGE addr (R185). -/
def execJgeAddr (t : Word) (s : State) : Result := jumpTo .greaterThanOrEqualTo 3 t s

/-- JLE addr (R186). -/
def execJleAddr (t : Word) (s : State) : Result := jumpTo .lessThanOrEqualTo 3 t s

/-- JE reg (R187). -/
def execJeReg (r : Byte) (s : State) : Result := jumpToRegister .equal r s

/-- JNE reg (R188). -/
def execJneReg (r : Byte) (s : State) : Result := jumpToRegister .notEqual r s

/-- JGT reg (R189). -/
def execJgtReg (r : Byte) (s : State) : Result := jumpToRegister .greaterThan r s

/-- JLT reg (R190). -/
def execJltReg (r : Byte) (s : State) : Result := jumpToRegister .lessThan r s

/-- JGE reg (R191). -/
def execJgeReg (r : Byte) (s : State) : Result := jumpToRegister .greaterThanOrEqualTo r s

/-- JLE reg (R192). -/
def execJleReg (r : Byte) (s : State) : Result := jumpToRegister .lessThanOrEqualTo r s

end Sys2Proof.Machine
end

