-- ==== Sys2Proof/Machine/Stack.lean ====
section
/-! DEFINITION. PUSH and POP, which leave SP alone (41_stack.md R150 to R152). -/

namespace Sys2Proof.Machine

/-- PUSH reg (R150): `StkWrite(SP, x[r])`. -/
def execPush (r : Byte) (s : State) : Result :=
  completed 2 (withRegisterValue r s fun v => .next (writeStack s s.sp v))

/-- POP reg (R151): `x[r] <- StkRead(SP)`; the index is checked before the stack is read. -/
def execPop (r : Byte) (s : State) : Result :=
  completed 2 (withRegister r s fun d => setReg s d (readStack s s.sp))

end Sys2Proof.Machine
end

