-- ==== Sys2Proof/Machine/TextIo.lean ====
section
/-! DEFINITION. Text output and input (44_io.md R200 to R205). -/

namespace Sys2Proof.Machine

/-- How many addresses a WRITE can scan before it meets a byte again: the whole address space (R201). -/
def scanLimit : Nat := 65536

/-- The bytes from `t` up to the first zero byte, wrapping from 0xFFFF to 0x0000; none where the next `n` bytes hold
no zero (R201). -/
def scanText (s : State) (t : Word) : Nat → Option (List Byte)
  | 0 => none
  | n + 1 =>
    if readByte s t = 0x00#8 then some []
    else (scanText s (t + 1#16) n).map (readByte s t :: ·)

/-- The loop and the emit of R201. Where no byte of the address space is zero the step never completes (U7). -/
def writeText (t : Word) (s : State) : Result :=
  match scanText s t scanLimit with
  | some text => .next (s.emit (.output text))
  | none => .fault (.writeNeverCompletes t)

/-- WRITE addr (R201). -/
def execWriteAddr (t : Word) (s : State) : Result := completed 3 (writeText t s)

/-- WRITE reg (R202). -/
def execWriteReg (r : Byte) (s : State) : Result := completed 2 (withRegisterValue r s fun t => writeText t s)

/-- The writes of R203: the input bytes from `t` on, then one zero byte. -/
def storeText (s : State) (t : Word) : List Byte → State
  | [] => writeByte s t 0x00#8
  | c :: text => storeText (writeByte s t c) (t + 1#16) text

/-- A READ form at its target (R205). A string the environment has ready completes the instruction at once, both
halves folded into one step; where none is ready the READ waits: `Pending <- t`, IP and memory as they were. -/
def readText (len : Nat) (t : Word) (s : State) : Result :=
  match s.inputs with
  | text :: later => completed len (.next (storeText { s with inputs := later } t text))
  | [] => .next (s.withPending (some { target := t, len := len }))

/-- READ addr (R203). -/
def execReadAddr (t : Word) (s : State) : Result := readText 3 t s

/-- READ reg (R204): the register is read before any input is requested. -/
def execReadReg (r : Byte) (s : State) : Result := withRegisterValue r s fun t => readText 2 t s

/-- `resumeWithInput(text)` (R205): allowed while a READ waits and the engine is not halted (60_exceptions.md R213). -/
def resumeWithInput (text : List Byte) (s : State) : Result :=
  if s.halted then .refused .halted
  else
    match s.pending with
    | none => .refused .notPending
    | some p => completed p.len (.next ((storeText s p.target text).withPending none))

/-- The environment's answer to a waiting READ: the next string it has ready, or a string chosen freely (R9, R205,
log entry 8). -/
def resumeFromEnvironment (s : State) : Result :=
  match s.inputs with
  | text :: later => resumeWithInput text { s with inputs := later }
  | [] => resumeWithInput (Config.inputText s.draws) { s with draws := s.draws + 1 }

end Sys2Proof.Machine
end

