-- ==== Sys2Proof/Machine/Dispatch.lean ====
section
/-! DEFINITION. One arm per instruction. -/

namespace Sys2Proof.Machine

def exec (i : Instr) (s : State) : Host.Outcome State Fault Refusal :=
  match i with
  | .nop => Sys2Proof.Machine.execNop s
  | .imm r v => Sys2Proof.Machine.execImm r v s
  | .mov dst src => Sys2Proof.Machine.execMov dst src s
  | .lda r => Sys2Proof.Machine.execLda r s
  | .ldb r => Sys2Proof.Machine.execLdb r s
  | .sta r => Sys2Proof.Machine.execSta r s
  | .stb r => Sys2Proof.Machine.execStb r s
  | .push r => Sys2Proof.Machine.execPush r s
  | .pop r => Sys2Proof.Machine.execPop r s
  | .add => Sys2Proof.Machine.execAdd s
  | .sub => Sys2Proof.Machine.execSub s
  | .mul => Sys2Proof.Machine.execMul s
  | .div => Sys2Proof.Machine.execDiv s
  | .and => Sys2Proof.Machine.execAnd s
  | .or => Sys2Proof.Machine.execOr s
  | .xor => Sys2Proof.Machine.execXor s
  | .not => Sys2Proof.Machine.execNot s
  | .cmp => Sys2Proof.Machine.execCmp s
  | .jeAddr t => Sys2Proof.Machine.execJeAddr t s
  | .jneAddr t => Sys2Proof.Machine.execJneAddr t s
  | .jgtAddr t => Sys2Proof.Machine.execJgtAddr t s
  | .jltAddr t => Sys2Proof.Machine.execJltAddr t s
  | .jgeAddr t => Sys2Proof.Machine.execJgeAddr t s
  | .jleAddr t => Sys2Proof.Machine.execJleAddr t s
  | .jeReg r => Sys2Proof.Machine.execJeReg r s
  | .jneReg r => Sys2Proof.Machine.execJneReg r s
  | .jgtReg r => Sys2Proof.Machine.execJgtReg r s
  | .jltReg r => Sys2Proof.Machine.execJltReg r s
  | .jgeReg r => Sys2Proof.Machine.execJgeReg r s
  | .jleReg r => Sys2Proof.Machine.execJleReg r s
  | .writeAddr t => Sys2Proof.Machine.execWriteAddr t s
  | .writeReg r => Sys2Proof.Machine.execWriteReg r s
  | .readAddr t => Sys2Proof.Machine.execReadAddr t s
  | .readReg r => Sys2Proof.Machine.execReadReg r s

end Sys2Proof.Machine
end

