-- ==== Sys2Proof/Machine/Fetch.lean ====
section
/-! DEFINITION. Fetching an instruction's bytes (30_encoding.md R104, R113), and placing bytes where the next step
fetches them. -/

namespace Sys2Proof.Machine

/-- The address of byte `k` of the instruction at IP: `(a0 + k) mod 65536` (R104). -/
def fetchAddr (s : State) (k : Nat) : Word := s.ip + BitVec.ofNat 16 k

/-- The bytes an instruction at IP can have, opcode first, with IP unmoved (R104, R113). An instruction uses the first
`len` of the four; reading the others has no effect (20_memory.md R79). -/
def fetchBytes (s : State) : List Byte :=
  [readByte s (fetchAddr s 0), readByte s (fetchAddr s 1), readByte s (fetchAddr s 2), readByte s (fetchAddr s 3)]

/-- The instruction at IP (R107, R113). -/
def fetchInstr (s : State) : Decoded := decode s.cfg.table (fetchBytes s)

/-- The state with a byte put at an address for the next fetch: into RAM, or into the ROM file's mapped bank and the
window onto it. This stands for loading a program (log entry 34). -/
def placeByte (s : State) (addr : Word) (v : Byte) : State :=
  if addr.toNat < ramSize then s.withRam (Memory.write s.ram addr.toNat v)
  else
    { s with
      bankBuf := BankBuf.patch s.bankBuf (addr.toNat - ramSize) v
      cfg := { s.cfg with romFile := RomFile.patch s.cfg.romFile (s.curBank * bankSize + (addr.toNat - ramSize)) v } }

/-- The state with bytes put one after the other from byte `k` of the instruction at IP on. -/
def placeBytes (s : State) (k : Nat) : List Byte → State
  | [] => s
  | v :: vs => placeBytes (placeByte s (fetchAddr s k) v) (k + 1) vs

end Sys2Proof.Machine
end

