-- ==== Sys2Proof/Machine/Step.lean ====
section
/-! DEFINITION. One step of the engine (30_encoding.md R113, 00_scope.md R7). -/

namespace Sys2Proof.Machine

/-- `step()`: refused on a halted engine (R213); while a READ waits, the environment's answer to it (R205); else the
instruction at IP is fetched, decoded and executed. -/
def step (s : State) : Host.Outcome State Fault Refusal :=
  if s.halted then .refused .halted
  else
    match s.pending with
    | some _ => resumeFromEnvironment s
    | none =>
      match fetchInstr s with
      | .ok (i, _) => exec i s
      | .error _ => .refused (.noOperation (readByte s s.ip))

/-- The state with the instruction whose bits are `w` stored where the next step fetches it, and nothing that keeps
that step from running it (log entry 34). -/
def State.withFetchWord (s : State) (nbits w : Nat) : State :=
  ((placeBytes s 0 (fetchWordBytes nbits w)).withHalted false).withPending none

end Sys2Proof.Machine
end

