-- ==== Sys2Proof/Safety.lean ====
section
/-! DEFINITION. What claims about runs are said in: the machine invariant (10_state.md R43), the registers and
addresses an instruction writes, and when the ROM window can change. -/

namespace Sys2Proof.Machine

/-- A READ has two or three bytes (30_encoding.md R110), so a waiting one does. -/
def pendingLengthOk (p : Option PendingRead) : Bool :=
  match p with
  | none => true
  | some q => q.len == 2 || q.len == 3

/-- The machine invariant: R43's clauses that the types do not give already, for a configuration under which every
bank and opcode is defined. `draw` and `fresh` say that BANKBUF's free bytes were drawn at an earlier refill. -/
structure State.Inv (s : State) : Prop where
  config : s.cfg.wf = true
  ram : s.ram.wf = true
  bank : s.bankBuf = loadBank s.cfg s.curBank s.bankBuf.draw
  fresh : s.bankBuf.draw < s.draws
  bankNum : s.cfg.variant = .preloaded → s.bankNum.toNat < s.cfg.nbanks
  curBank : s.cfg.variant = .preloaded → s.curBank < s.cfg.nbanks
  pending : pendingLengthOk s.pending = true

/-- The state with a register written as 10_state.md R25 to R28 say, in the rules' own arithmetic; for BankNum the
state after the reload of R27. -/
def registerWritten (s : State) (d : Reg) (v : Word) : State :=
  match d with
  | .A => { s with a := v }
  | .B => { s with b := v }
  | .X => { s with x := v }
  | .Y => { s with y := v }
  | .SP => { s with sp := BitVec.ofNat 15 (v.toNat % 0x8000) }
  | .IP => { s with ip := v }
  | .BankNum =>
    { s with
      bankNum := BitVec.ofNat 8 (v.toNat % 256)
      curBank := v.toNat % 256
      bankBuf := loadBank s.cfg (v.toNat % 256) s.draws
      draws := s.draws + 1
      trace := s.trace ++ [.bankSwitched (v.toNat % 256)] }
  | .Flags => { s with flags := BitVec.ofNat 8 (v.toNat % 256) }

/-- Whether the register takes the value: a Preloaded BankNum takes bytes below NBANKS only (R27). -/
def writeAllowed (s : State) (d : Reg) (v : Word) : Prop :=
  d = .BankNum → s.cfg.variant = .preloaded → v.toNat % 256 < s.cfg.nbanks

/-- The word `lo | (hi << 8)` in the rules' own arithmetic (20_memory.md R64). -/
def littleEndian (lo hi : Byte) : Word := BitVec.ofNat 16 (lo.toNat + 256 * hi.toNat)

/-- The text at an address (44_io.md R201): its bytes are not zero, and a zero byte follows within one pass through the
address space. -/
def textAt (s : State) (t : Word) (text : List Byte) : Prop :=
  text.length < 65536 ∧ readByte s (t + BitVec.ofNat 16 text.length) = 0x00#8 ∧
    ∀ k (hk : k < text.length), readByte s (t + BitVec.ofNat 16 k) = text[k] ∧ text[k] ≠ 0x00#8

/-- The registers an instruction writes: by its effect, IP's advance and a taken jump apart (10_state.md R25 to R28,
R32, R36, R38). -/
def destinations : Instr → List Reg
  | .imm r _ => (Reg.ofByte? r).toList
  | .mov dst _ => [dst]
  | .lda _ => [.A]
  | .ldb _ => [.B]
  | .pop r => (Reg.ofByte? r).toList
  | .add | .sub | .mul | .div | .and | .or | .xor => [.SP]
  | .cmp => [.SP, .Flags]
  | .nop | .sta _ | .stb _ | .push _ | .not => []
  | .jeAddr _ | .jneAddr _ | .jgtAddr _ | .jltAddr _ | .jgeAddr _ | .jleAddr _ => []
  | .jeReg _ | .jneReg _ | .jgtReg _ | .jltReg _ | .jgeReg _ | .jleReg _ => []
  | .writeAddr _ | .writeReg _ | .readAddr _ | .readReg _ => []

/-- The two addresses of a data word (20_memory.md R65). -/
def wordAddrs (addr : Word) : List Word := [addr, addr + 1#16]

/-- The two addresses of a stack word (R75). -/
def stackWordAddrs (p : StackPtr) : List Word := [stackAddr p, stackAddr (nextSP p)]

/-- The addresses a completing READ stores to (44_io.md R203): the text's and the zero byte's; none while it waits. -/
def readAddrs (s : State) (t : Word) : List Word :=
  match s.inputs with
  | text :: _ => (List.range (text.length + 1)).map fun k => t + BitVec.ofNat 16 k
  | [] => []

/-- The addresses of a store through a Register operand. -/
def throughRegister (s : State) (r : Byte) (addrs : Word → List Word) : List Word :=
  match Reg.ofByte? r with
  | some reg => addrs (getReg s reg)
  | none => []

/-- The addresses an instruction stores to in a state, before the ROM window discards its share (20_memory.md R78). -/
def storedAddrs (i : Instr) (s : State) : List Word :=
  match i with
  | .sta r | .stb r => throughRegister s r wordAddrs
  | .push _ => stackWordAddrs s.sp
  | .add | .sub | .mul | .div | .and | .or | .xor => stackWordAddrs (prevSP4 s.sp)
  | .not => stackWordAddrs (prevSP2 s.sp)
  | .readAddr t => readAddrs s t
  | .readReg r => throughRegister s r (readAddrs s)
  | .nop | .imm _ _ | .mov _ _ | .lda _ | .ldb _ | .pop _ | .cmp => []
  | .jeAddr _ | .jneAddr _ | .jgtAddr _ | .jltAddr _ | .jgeAddr _ | .jleAddr _ => []
  | .jeReg _ | .jneReg _ | .jgtReg _ | .jltReg _ | .jgeReg _ | .jleReg _ => []
  | .writeAddr _ | .writeReg _ => []

/-- Whether an instruction can map a bank: by a write to BankNum (10_state.md R27), or by a Streaming advance of IP
past 0xFFFF (R33), which a write to IP can lead to from anywhere. -/
def mayMapBank (i : Instr) (s : State) : Bool :=
  (destinations i).contains .BankNum ||
    (s.cfg.variant == .streaming && ((destinations i).contains .IP || decide (0xFFFF < s.ip.toNat + i.length)))

/-- The outcomes a run can have: a next state, or one of the two faults of the machine (60_exceptions.md R210). -/
def goodOutcome : Result → Bool
  | .next _ => true
  | .fault (.invalidRegister _ _) => true
  | .fault (.outOfRangeBank _ _) => true
  | .fault (.writeNeverCompletes _) => false
  | .refused _ => false

end Sys2Proof.Machine
end

