-- ==== Sys2Proof/Certificates/Slice0/Obligations.lean ====
section
/-! DEFINITION. The statements for the provers. Each says a rule of spec/, or what follows from the sections its entry
in OBLIGATIONS.json cites; the log entries named are those of notes/assumptions. -/

open Sys2Proof Sys2Proof.Machine

/-- Decoding an encoded instruction gives it back, under every decode table. For every decode table, instruction, byte
string and following bytes: if the encoder gives the byte string for the instruction, then decoding the byte string
followed by the other bytes gives exactly the instruction and leaves exactly the other bytes. Every operand takes
every value. -/
def Obligations.DecodeOfEncodeIsIdentity : Prop :=
  ∀ (t : DecodeTable) (i : Instr) (bytes rest : List Byte),
    encodeWith t i = some bytes → decode t (bytes ++ rest) = .ok (i, rest)

/-- The encoder answers exactly for the operations some opcode byte selects. Under every decode table an instruction
has an encoding exactly when some opcode byte selects its operation; under the reference table the only instructions
without one are READ reg. That READ reg has none rests on OPMOD = 33 (D1, log entry 13). -/
def Obligations.EncodeDefinedExactlyOnReachableOperations : Prop :=
  (∀ (t : DecodeTable) (i : Instr), (∃ bytes, encodeWith t i = some bytes) ↔ ∃ b0, t.lookup b0 = some i.operation ∧ 0 < t.opmod) ∧
    ∀ i : Instr, encode i = none ↔ ∃ r, i = .readReg r

/-- Under an admissible table any four bytes decode to an instruction of one to four bytes. Under every table that is
total on 0..OPMOD-1, any four bytes decode, and the instruction is one to four bytes long: there is no illegal opcode.
-/
def Obligations.EveryOpcodeByteDecodes : Prop :=
  ∀ (t : DecodeTable) (b0 b1 b2 b3 : Byte), t.admissible = true →
    ∃ i rest, decode t [b0, b1, b2, b3] = .ok (i, rest) ∧ 1 ≤ i.length ∧ i.length ≤ 4

/-- The decoded length is the number of bytes taken, and of the selected operation. Whenever bytes decode, the bytes
left over are the given bytes less the instruction's length from the front, the length is that of the operation OPTAB
selects, and the instruction performs that operation. -/
def Obligations.DecodeLengthIsBytesConsumed : Prop :=
  ∀ (t : DecodeTable) (b0 : Byte) (bytes rest : List Byte) (i : Instr),
    decode t (b0 :: bytes) = .ok (i, rest) →
      t.lookup b0 = some i.operation ∧ rest = (b0 :: bytes).drop i.length ∧
        (b0 :: bytes).length = i.length + rest.length

/-- A byte window shorter than its instruction is rejected as out of range, and no other window is. Where the opcode
byte selects an operation, decoding answers out-of-range exactly when the window holds fewer bytes than the
operation's length. -/
def Obligations.TruncatedWindowIsOutOfRange : Prop :=
  ∀ (t : DecodeTable) (b0 : Byte) (bytes : List Byte) (op : Operation), t.lookup b0 = some op →
    (decode t (b0 :: bytes) = .error .outOfRange ↔ (b0 :: bytes).length < op.length)

/-- The opcode byte counts only modulo 33; indices 0..24 have eight bytes, 25..32 seven. Under the reference table two
opcode bytes with the same remainder modulo 33 decode alike whatever follows; the byte i selects index i; an index of
0..24 is selected by eight bytes and one of 25..32 by seven. All of it speaks of OPMOD = 33, a decision the spec marks
as its own (D1, log entry 13), and of the reference table (D2, log entry 15); the count of bytes is the arithmetic of
that modulus. -/
def Obligations.AliasBytesSelectOneOperation : Prop :=
  (∀ (b b' : Byte) (rest : List Byte), b.toNat % 33 = b'.toNat % 33 →
      decode referenceTable (b :: rest) = decode referenceTable (b' :: rest)) ∧
    (∀ i : Fin 33, referenceTable.lookup (BitVec.ofNat 8 i.val) = referenceTable.ops[i.val]?) ∧
    ∀ i : Fin 33, (List.range 256).countP (fun b => b % 33 = i.val) = if i.val ≤ 24 then 8 else 7

/-- A RegisterPair byte gives dst from bits 2..0 and src from bits 5..3; bits 7..6 are ignored. For every operand byte
p, the bytes 02 p decode to MOV with the register of index p mod 8 as destination and of index (p / 8) mod 8 as
source. That bits 7..6 are ignored is a decision the spec marks as its own (D9, log entry 21), and so is the opcode
byte 0x02 (D2, log entry 15). -/
def Obligations.RegisterPairFields : Prop :=
  ∀ (p : Byte) (rest : List Byte), ∃ dst src : Reg,
    decode referenceTable (0x02#8 :: p :: rest) = .ok (.mov dst src, rest) ∧
      dst.index = p.toNat % 8 ∧ src.index = p.toNat / 8 % 8

/-- Words written out from the spec's encodings decode to their instructions. IMM A, 0x1234; MOV X, A; PUSH A; ADD;
CMP; JE 0x8010; JE X; WRITE 0x0300; READ 0x0400, each from the spec's bytes. The opcode bytes are those of the
reference table, a decision the spec marks as its own (D2, log entry 15). That the bytes 0xF8 and 0xFF decode to CMP
and JE reg rests on OPMOD = 33 (D1, log entry 13). -/
def Obligations.SpecWordsDecode : Prop :=
  decode referenceTable [0x01, 0x00, 0x34, 0x12] = .ok (.imm 0 0x1234, []) ∧
    decode referenceTable [0x02, 0x02] = .ok (.mov .X .A, []) ∧
    decode referenceTable [0x07, 0x00] = .ok (.push 0, []) ∧
    decode referenceTable [0x09] = .ok (.add, []) ∧
    decode referenceTable [0xF8] = .ok (.cmp, []) ∧
    decode referenceTable [0x12, 0x10, 0x80] = .ok (.jeAddr 0x8010, []) ∧
    decode referenceTable [0xFF, 0x02] = .ok (.jeReg 2, []) ∧
    decode referenceTable [0x1E, 0x00, 0x03] = .ok (.writeAddr 0x0300, []) ∧
    decode referenceTable [0x20, 0x00, 0x04] = .ok (.readAddr 0x0400, [])

/-- A step of a machine that neither is halted nor waits runs the instruction decoded at IP. Where the four bytes at
(IP + k) mod 65536 decode under the machine's table to an instruction, and the engine is not halted and no READ waits,
the step is exec of that instruction at the same state, with IP still at the instruction. The linear operand addresses
and the unmoved IP are decisions the spec marks as its own (D5 and D4, log entries 17 and 16). -/
def Obligations.StepRunsDecodedInstruction : Prop :=
  ∀ (s : State) (i : Instr) (rest : List Byte), s.halted = false → s.pending = none →
    decode s.cfg.table [readByte s s.ip, readByte s (s.ip + 1#16), readByte s (s.ip + 2#16), readByte s (s.ip + 3#16)] =
      .ok (i, rest) →
    step s = exec i s

/-- On a halted engine neither step nor resumeWithInput is allowed, and reset clears Halted. A halted state answers a
refusal to step and to resumeWithInput with any text; the environment's reset of it is not halted. That a call which
is not allowed is answered by a refusal is the model's choice (log entry 11). That a fault is terminal and only a
reset clears Halted is a decision the spec marks as its own (D13, log entry 10). -/
def Obligations.HaltedEngineRefusesStepAndResume : Prop :=
  ∀ s : State, s.halted = true →
    step s = .refused .halted ∧ (∀ text, resumeWithInput text s = .refused .halted) ∧ (resetMachine s).halted = false

/-- An instruction placed for the next step is what that step fetches. In every state that meets the invariant, after
withFetchWord the bytes fetched at IP are the word's bytes and the state neither is halted nor waits, wherever IP
points, also where the instruction straddles RAM and the ROM window. The placing stands for loading a program (log
entry 34). -/
def Obligations.PlacedInstructionIsFetched : Prop :=
  ∀ (s : State) (nbits w : Nat), s.Inv →
    fetchBytes (s.withFetchWord nbits w) = fetchWordBytes nbits w ∧
      (s.withFetchWord nbits w).halted = false ∧ (s.withFetchWord nbits w).pending = none

/-- Every step keeps the machine invariant. If a state meets the invariant (RAM in canonical form and below 0x8000,
BANKBUF equal to bank CurBank of the ROM, Preloaded BankNum and CurBank below NBANKS, the free fill drawn earlier, an
admissible configuration, a legal waiting READ) and step answers a next state, the next state meets it. Clauses also
rest on these decisions of the spec: the bank fault (D10, log entry 22); BankNum and the mapped bank (D11, log entry
23); the bytes past the end of a Streaming file (D12, log entry 7); the number of banks (D22, log entry 31). The count
of draws is the model's (log entry 9). It covers machines that wait on a READ, where R205 does not allow step(): what
such a step answers is the model's choice (log entry 8). The length of a waiting READ is DEDUCED (log entry 33). -/
def Obligations.StepKeepsInvariant : Prop :=
  ∀ s s' : State, s.Inv → step s = .next s' → s'.Inv

/-- The state after reset meets the invariant. State.reset meets the machine invariant. Its configuration is the
model's reference one (log entry 2). Clauses also rest on these decisions of the spec: the reset values (D14, log
entry 3). -/
def Obligations.ResetMeetsInvariant : Prop :=
  State.reset.Inv

/-- Reset with any admissible configuration meets the invariant. For every configuration whose table is admissible,
whose ROM file is in form and whose NBANKS (at least one) banks lie inside the image, and for every initial RAM
content, the state after reset meets the invariant. The reset values are decisions the spec marks as its own (D14, log
entry 3). -/
def Obligations.EveryResetMeetsInvariant : Prop :=
  ∀ (c : Config) (draw : Nat) (inputs : List (List Byte)), c.wf = true → (State.resetWith c draw inputs).Inv

/-- A machine that meets the invariant and is not halted never answers a refusal. In every state that meets the
invariant and is not halted, step answers a next state or a fault. The refusals are the model's (log entries 11 and
14). It covers machines that wait on a READ, where R205 does not allow step(): what such a step answers is the model's
choice (log entry 8). -/
def Obligations.StepNeverRefusesLiveMachine : Prop :=
  ∀ (s : State) (e : Refusal), s.Inv → s.halted = false → step s ≠ .refused e

/-- No step changes the parameters, sets Halted with a next state, or takes an event back. If step answers a next
state, the configuration is the same, the engine is not halted (a halt comes with a fault), and the trace before is a
prefix of the trace after. That the halted state comes with the fault is the model's form (log entry 10). The
parameters as a field of the state are the model's (log entry 1). It covers machines that wait on a READ, where R205
does not allow step(): what such a step answers is the model's choice (log entry 8). Clauses also rest on these
decisions of the spec: which notifications the trace records (D19, log entry 28). -/
def Obligations.StepKeepsParametersAndTrace : Prop :=
  ∀ s s' : State, step s = .next s' →
    s'.cfg = s.cfg ∧ s'.halted = false ∧ ∃ events, s'.trace = s.trace ++ events

/-- A fault leaves every component as it was, but for Halted. Whenever an instruction answers InvalidRegister or
OutOfRangeBank, the state it leaves is the state before the step with Halted set and nothing else changed. That faults
are precise is a decision the spec marks as its own (D13, log entry 10). -/
def Obligations.FaultsArePreciseAndHalt : Prop :=
  ∀ (i : Instr) (s t : State) (r : Byte) (v : Int),
    (exec i s = .fault (.invalidRegister r t) → t = { s with halted := true }) ∧
      (exec i s = .fault (.outOfRangeBank v t) → t = { s with halted := true })

/-- InvalidRegister(r) is raised exactly by an instruction whose Register operand byte is r, in 8..255. For every
instruction and state: the instruction answers InvalidRegister(r) exactly when it has a Register operand byte, that
byte is r and r is at least 8; so also when a jump would not be taken, and before any input is requested. When the
operand is validated is a decision the spec marks as its own (D18, log entry 27). -/
def Obligations.InvalidRegisterExactlyOnBadOperand : Prop :=
  ∀ (i : Instr) (s : State) (r : Byte),
    (∃ t, exec i s = .fault (.invalidRegister r t)) ↔ i.registerOperand = some r ∧ 8 ≤ r.toNat

/-- OutOfRangeBank(b) is raised exactly by a Preloaded write of a byte b of NBANKS or more to BankNum. For every
instruction and state: the instruction answers OutOfRangeBank(v) exactly when the variant is Preloaded and the
instruction is IMM, MOV or POP with destination 6 and a value whose low byte is v, not below NBANKS. That such a write
faults is a decision the spec marks as its own (D10, log entry 22). Clauses also rest on these decisions of the spec:
what BankNum and Flags read as (D8, log entry 20). That IP as a source of MOV reads as the instruction's own address
is D4 (log entry 16). -/
def Obligations.OutOfRangeBankExactlyOnBadBank : Prop :=
  ∀ (i : Instr) (s : State) (v : Int),
    (∃ t, exec i s = .fault (.outOfRangeBank v t)) ↔
      s.cfg.variant = .preloaded ∧
        ∃ w : Word,
          (i = .imm 6#8 w ∨ (∃ src, i = .mov .BankNum src ∧ w = getReg s src) ∨ (i = .pop 6#8 ∧ w = readStack s s.sp)) ∧
            v = ((w.toNat % 256 : Nat) : Int) ∧ s.cfg.nbanks ≤ w.toNat % 256

/-- An instruction is stuck exactly when it is a WRITE and no byte of the address space is zero. For every instruction
and state: the stuck outcome at t is answered exactly by WRITE addr with t, or WRITE reg with a register that holds t,
when every readable byte is nonzero. The name of the stuck outcome is the model's (log entry 12). That the scan wraps
and never ends is a decision the spec marks as its own (D16, log entry 25). Clauses also rest on these decisions of
the spec: what IP reads as (D4, log entry 16); what BankNum and Flags read as (D8, log entry 20). -/
def Obligations.StuckExactlyOnWriteWithoutZero : Prop :=
  ∀ (i : Instr) (s : State) (t : Word),
    exec i s = .fault (.writeNeverCompletes t) ↔
      (i = .writeAddr t ∨ ∃ r reg, i = .writeReg r ∧ Reg.ofByte? r = some reg ∧ t = getReg s reg) ∧
        ∀ a : Word, readByte s a ≠ 0x00#8

/-- A byte below 0x8000 is RAM's, one above is the active bank buffer's at the address less 0x8000. MemRead(addr, 1)
is RAM[addr] for addr up to 0x7FFF and BANKBUF[addr - 0x8000] otherwise; it is a function of the state and changes
nothing. -/
def Obligations.ByteReadSelectsRamOrBank : Prop :=
  ∀ (s : State) (a : Word),
    (a.toNat ≤ 0x7FFF → readByte s a = Memory.read s.ram a.toNat) ∧
      (0x8000 ≤ a.toNat → readByte s a = BankBuf.read s.bankBuf (a.toNat - 0x8000))

/-- A byte write stores in RAM, is discarded in the ROM window, and changes nothing else. With RAM in canonical form:
after MemWrite(a, 1, v) the byte at a reads v when a is below 0x8000; every other address reads as before; a write at
or above 0x8000 changes nothing at all; and the state differs at most in RAM, whose form is kept. -/
def Obligations.ByteWriteStoresInRamOnly : Prop :=
  ∀ (s : State) (a b : Word) (v : Byte), s.ram.wf = true →
    readByte (writeByte s a v) b = (if b = a ∧ a.toNat < 0x8000 then v else readByte s b) ∧
      (0x8000 ≤ a.toNat → writeByte s a v = s) ∧
      ∃ m : Memory, m.wf = true ∧ writeByte s a v = { s with ram := m }

/-- A data word is little-endian, its second byte at the successor modulo 65536. MemRead(addr, 2) has the byte at addr
as its low byte and the byte at (addr + 1) mod 65536 as its high byte; at 0x7FFF these are RAM[0x7FFF] and BANKBUF[0],
at 0xFFFF BANKBUF[0x7FFF] and RAM[0]. The address of the second byte at 0x7FFF and at 0xFFFF is a decision the spec
marks as its own (D15, log entry 24). -/
def Obligations.WordReadIsLittleEndian : Prop :=
  ∀ s : State,
    (∀ a : Word, readWord s a = littleEndian (readByte s a) (readByte s (BitVec.ofNat 16 ((a.toNat + 1) % 65536)))) ∧
      readWord s 0x7FFF#16 = littleEndian (Memory.read s.ram 0x7FFF) (BankBuf.read s.bankBuf 0) ∧
      readWord s 0xFFFF#16 = littleEndian (BankBuf.read s.bankBuf 0x7FFF) (Memory.read s.ram 0)

/-- A data word is stored little-endian, each byte kept or discarded by its own address. With RAM in canonical form:
after MemWrite(a, 2, v) the byte v[7:0] reads back at a and v[15:8] at (a + 1) mod 65536, each only where its address
is below 0x8000, and every other address reads as before; so at 0x7FFF only the low byte is stored, at 0xFFFF only the
high byte into RAM[0], at 0x8000..0xFFFE nothing. The address of the second byte at 0x7FFF and at 0xFFFF is a decision
the spec marks as its own (D15, log entry 24). -/
def Obligations.WordWriteStoresEachByteOnItsOwn : Prop :=
  ∀ (s : State) (a b : Word) (v : Word), s.ram.wf = true →
    readByte (writeWord s a v) b =
        (if b = a ∧ b.toNat < 0x8000 then BitVec.ofNat 8 (v.toNat % 256)
          else if b = BitVec.ofNat 16 ((a.toNat + 1) % 65536) ∧ b.toNat < 0x8000 then BitVec.ofNat 8 (v.toNat / 256)
          else readByte s b) ∧
      (0x8000 ≤ a.toNat → a.toNat ≤ 0xFFFE → writeWord s a v = s) ∧
      ∃ m : Memory, m.wf = true ∧ writeWord s a v = { s with ram := m }

/-- A stack word is little-endian with its second byte at nextSP, always in RAM, and reads back. StkRead(p) has RAM[p]
as its low and RAM[nextSP(p)] as its high byte, at 0x7FFF RAM[0x0000], so that it is MemRead(p, 2) at every other p.
With RAM in canonical form, after StkWrite(p, v) StkRead(p) is v, RAM[p] is v[7:0] and RAM[nextSP(p)] is v[15:8], and
every other address reads as before. -/
def Obligations.StackWordReadBack : Prop :=
  ∀ (s : State) (p : StackPtr) (v : Word),
    readStack s p = littleEndian (Memory.read s.ram p.toNat) (Memory.read s.ram ((p.toNat + 1) % 0x8000)) ∧
      (p.toNat ≠ 0x7FFF → readStack s p = readWord s (stackAddr p)) ∧
      (s.ram.wf = true →
        readStack (writeStack s p v) p = v ∧
          Memory.read (writeStack s p v).ram p.toNat = BitVec.ofNat 8 (v.toNat % 256) ∧
          Memory.read (writeStack s p v).ram ((p.toNat + 1) % 0x8000) = BitVec.ofNat 8 (v.toNat / 256) ∧
          (∀ b : Word, b.toNat ≠ p.toNat → b.toNat ≠ (p.toNat + 1) % 0x8000 →
            readByte (writeStack s p v) b = readByte s b) ∧
          ∃ m : Memory, m.wf = true ∧ writeStack s p v = { s with ram := m })

/-- nextSP and prevSP are inverse, count modulo 0x8000 and stay in RAM. nextSP(p) = (p + 1) mod 0x8000, prevSP(p) is p
- 1 or, at 0, 0x7FFF; they undo each other; every stack address is below 0x8000. -/
def Obligations.StackPointerCircle : Prop :=
  ∀ p : StackPtr,
    (nextSP p).toNat = (p.toNat + 1) % 0x8000 ∧
      (prevSP p).toNat = (if p.toNat = 0 then 0x7FFF else p.toNat - 1) ∧
      nextSP (prevSP p) = p ∧ prevSP (nextSP p) = p ∧ (stackAddr p).toNat = p.toNat ∧ p.toNat < 0x8000

/-- The IP incrementer's four cases. nextIP sets IP to 0 at 0x7FFF; at 0xFFFF to 0 when Preloaded, with no bank
change, and when Streaming to 0x8000 after nextBank, with BankNum kept; elsewhere to IP + 1. That BankNum keeps its
value when a Streaming machine advances to the next bank is a decision the spec marks as its own (D11, log entry 23).
-/
def Obligations.NextIpCases : Prop :=
  ∀ s : State,
    (s.ip = 0x7FFF#16 → nextIP s = { s with ip := 0x0000#16 }) ∧
      (s.ip = 0xFFFF#16 → s.cfg.variant = .preloaded → nextIP s = { s with ip := 0x0000#16 }) ∧
      (s.ip = 0xFFFF#16 → s.cfg.variant = .streaming →
        nextIP s = { nextBank s with ip := 0x8000#16 } ∧ (nextIP s).bankNum = s.bankNum ∧
          (nextIP s).curBank = s.curBank + 1) ∧
      (s.ip ≠ 0x7FFF#16 → s.ip ≠ 0xFFFF#16 → nextIP s = { s with ip := BitVec.ofNat 16 (s.ip.toNat + 1) })

/-- advanceIP(n) is nextIP applied n times. For every count and state, advanceIP(n) is the n-fold application of
nextIP; from 0x7FFD by 4 it ends at 0x0001, and in a Streaming machine from 0xFFFE by 3 at 0x8001 of the next bank.
That an advance by n is n single increments is a decision the spec marks as its own (D6, log entry 18). Clauses also
rest on these decisions of the spec: BankNum and the mapped bank (D11, log entry 23). -/
def Obligations.AdvanceIpIteratesNextIp : Prop :=
  ∀ s : State,
    (∀ n : Nat, advanceIP n s = nextIP^[n] s) ∧
      (s.ip = 0x7FFD#16 → (advanceIP 4 s).ip = 0x0001#16) ∧
      (s.ip = 0xFFFE#16 → s.cfg.variant = .streaming →
        (advanceIP 3 s).ip = 0x8001#16 ∧ (advanceIP 3 s).curBank = s.curBank + 1)

/-- An advance from RAM wraps inside RAM and changes IP alone. From an IP below 0x8000, an advance by any n leaves IP
at (IP + n) mod 0x8000 and changes nothing else: sequential execution never enters ROM from RAM, in either variant. It
rests on D6 (log entry 18). -/
def Obligations.SequentialCodeStaysInRam : Prop :=
  ∀ (n : Nat) (s : State), s.ip.toNat < 0x8000 →
    advanceIP n s = { s with ip := BitVec.ofNat 16 ((s.ip.toNat + n) % 0x8000) }

/-- An advance inside the ROM window changes IP alone; past 0xFFFF it falls into RAM or into the next bank. From an IP
of 0x8000 or more: while IP + n stays at or below 0xFFFF an advance by n adds n to IP and changes nothing else; past
it, for n up to 4, a Preloaded machine ends at IP + n - 0x10000 and nothing else changes, a Streaming machine has
mapped bank CurBank + 1 and ends at IP + n - 0x8000. It rests on D6 and D11 (log entries 18 and 23). -/
def Obligations.AdvanceInsideRom : Prop :=
  ∀ (n : Nat) (s : State), 0x8000 ≤ s.ip.toNat →
    (s.ip.toNat + n ≤ 0xFFFF → advanceIP n s = { s with ip := BitVec.ofNat 16 (s.ip.toNat + n) }) ∧
      (0xFFFF < s.ip.toNat + n → n ≤ 4 → s.cfg.variant = .preloaded →
        advanceIP n s = { s with ip := BitVec.ofNat 16 (s.ip.toNat + n - 0x10000) }) ∧
      (0xFFFF < s.ip.toNat + n → n ≤ 4 → s.cfg.variant = .streaming →
        advanceIP n s = { switchBank s (s.curBank + 1) with ip := BitVec.ofNat 16 (s.ip.toNat + n - 0x8000) })

/-- Register reads, and the writes of every register but BankNum, with their truncations. x[i] reads the eight
registers, SP, BankNum and Flags zero-extended. A write to A, B, X, Y or IP stores the word, to SP the word modulo
0x8000, to Flags the word modulo 256, and changes nothing else. The widths of SP, BankNum and Flags on a read and a
write are decisions the spec marks as its own (D7 and D8, log entries 19 and 20). -/
def Obligations.RegisterReadsAndPlainWrites : Prop :=
  ∀ (s : State) (v : Word),
    (getReg s .A = s.a ∧ getReg s .B = s.b ∧ getReg s .X = s.x ∧ getReg s .Y = s.y ∧
        getReg s .IP = s.ip ∧ (getReg s .SP).toNat = s.sp.toNat ∧
        (getReg s .BankNum).toNat = s.bankNum.toNat ∧ (getReg s .Flags).toNat = s.flags.toNat) ∧
      setReg s .A v = .next { s with a := v } ∧ setReg s .B v = .next { s with b := v } ∧
      setReg s .X v = .next { s with x := v } ∧ setReg s .Y v = .next { s with y := v } ∧
      setReg s .IP v = .next { s with ip := v } ∧
      setReg s .SP v = .next { s with sp := BitVec.ofNat 15 (v.toNat % 0x8000) } ∧
      setReg s .Flags v = .next { s with flags := BitVec.ofNat 8 (v.toNat % 256) }

/-- A write to BankNum stores the low byte and maps that bank at once, or faults when Preloaded and out of range. A
write of v to BankNum with b = v mod 256: in a Preloaded machine with b not below NBANKS it raises OutOfRangeBank(b),
nothing changed but Halted; otherwise BankNum and CurBank become b, BANKBUF is loaded with bank b, BankSwitched(b) is
appended, even where b is the old value, and nothing else changes but the counter of free draws. The truncation, the
fault and the reload on every write are decisions the spec marks as its own (D8, D10 and D11, log entries 20, 22 and
23). Clauses also rest on these decisions of the spec: the precise fault (D13, log entry 10). The counter of free
draws is the model's (log entry 9). The trace as the record of events is D19 (log entry 28). -/
def Obligations.BankNumWriteReloadsOrFaults : Prop :=
  ∀ (s : State) (v : Word),
    (s.cfg.variant = .preloaded → s.cfg.nbanks ≤ v.toNat % 256 →
        setReg s .BankNum v =
          .fault (.outOfRangeBank ((v.toNat % 256 : Nat) : Int) { s with halted := true })) ∧
      (s.cfg.variant = .streaming ∨ v.toNat % 256 < s.cfg.nbanks →
        ∃ t, setReg s .BankNum v = .next t ∧ t.bankNum.toNat = v.toNat % 256 ∧ t.curBank = v.toNat % 256 ∧
          t.bankBuf = loadBank s.cfg (v.toNat % 256) s.draws ∧
          t.trace = s.trace ++ [.bankSwitched (v.toNat % 256)] ∧
          t = { s with bankNum := t.bankNum, curBank := t.curBank, bankBuf := t.bankBuf, trace := t.trace,
                       draws := s.draws + 1 })

/-- After a bank switch the window shows that bank of the ROM source. For every offset o of the window after
switchBank(n): Preloaded with n below NBANKS and an admissible configuration, it reads the ROM file's byte n * 32768 +
o, or 0x00 past the file's end; Streaming, it reads that byte of the file where the file has one, and where it has
none the refill's free byte, which stays the same until the next refill. The free byte and the image sizes are
decisions the spec marks as its own (D12 and D22, log entries 7 and 31). -/
def Obligations.BankWindowShowsRom : Prop :=
  ∀ (s : State) (n o : Nat), o < 0x8000 → s.cfg.wf = true →
    (s.cfg.variant = .preloaded → n < s.cfg.nbanks →
        readByte (switchBank s n) (BitVec.ofNat 16 (0x8000 + o)) =
          (s.cfg.romFile.byte? (n * 32768 + o)).getD 0x00#8) ∧
      (s.cfg.variant = .streaming →
        readByte (switchBank s n) (BitVec.ofNat 16 (0x8000 + o)) =
          (s.cfg.romFile.byte? (n * 32768 + o)).getD (Config.shortFill s.draws o))

/-- nextBank and previousBank: modulo NBANKS when Preloaded, linear when Streaming, -1 a fault. Preloaded with NBANKS
at least 1, nextBank is switchBank((CurBank + 1) mod NBANKS), and with CurBank below NBANKS previousBank is switchBank
of CurBank - 1, or at 0 of NBANKS - 1 (with 16 banks 15 to 0 forward and 0 to 15 backward); Streaming, nextBank is
switchBank(CurBank + 1), and previousBank switchBank(CurBank - 1) or at 0 OutOfRangeBank(-1), nothing changed but
Halted; in both variants a nextBank, and a previousBank that answers a next state, leave BankNum alone. That BankNum
keeps its value, and the fault at -1, are decisions the spec marks as its own (D11 and D12, log entries 23 and 32).
Clauses also rest on these decisions of the spec: the precise fault (D13, log entry 10); the number of banks (D22, log
entry 31). -/
def Obligations.NextAndPreviousBank : Prop :=
  ∀ s : State,
    (s.cfg.variant = .preloaded → 0 < s.cfg.nbanks →
        nextBank s = switchBank s ((s.curBank + 1) % s.cfg.nbanks) ∧
          (s.curBank < s.cfg.nbanks →
            previousBank s = .next (switchBank s (if s.curBank = 0 then s.cfg.nbanks - 1 else s.curBank - 1)))) ∧
      (s.cfg.variant = .streaming →
        nextBank s = switchBank s (s.curBank + 1) ∧
          (0 < s.curBank → previousBank s = .next (switchBank s (s.curBank - 1))) ∧
          (s.curBank = 0 → previousBank s = .fault (.outOfRangeBank (-1) { s with halted := true }))) ∧
      (nextBank s).bankNum = s.bankNum ∧ ∀ t, previousBank s = .next t → t.bankNum = s.bankNum

/-- NOP: every alias byte decodes to it, and it only advances IP by 1. The bytes 0x00, 0x21, 0x42, 0x63, 0x84, 0xA5,
0xC6, 0xE7 decode to NOP, and NOP answers the state with IP advanced by 1. The opcode bytes are those of the reference
table, a decision the spec marks as its own (D2, log entry 15). That 0x21 and the six bytes after it are aliases of
NOP rests on OPMOD = 33 (D1, log entry 13). -/
def Obligations.NopAdvancesIpOnly : Prop :=
  (∀ b0 ∈ ([0x00, 0x21, 0x42, 0x63, 0x84, 0xA5, 0xC6, 0xE7] : List Byte), ∀ rest : List Byte,
      decode referenceTable (b0 :: rest) = .ok (.nop, rest)) ∧
    ∀ s : State, exec .nop s = .next (advanceIP 1 s)

/-- IMM reg, imm: loads the named register with its truncation and side effect, or faults, then advances by 4. 01 r lo
hi decodes to IMM. With r in 0..7 and the write allowed, IMM answers the state with register r written and then IP
advanced by 4 from wherever IP then is; a Preloaded bank number out of range faults with OutOfRangeBank, r above 7
with InvalidRegister, nothing changed but Halted. The opcode bytes are those of the reference table, a decision the
spec marks as its own (D2, log entry 15). The advance from the written IP is D4 (log entry 16). Clauses also rest on
these decisions of the spec: the advance by single increments (D6, log entry 18); SP modulo 0x8000 (D7, log entry 19);
the widths of BankNum and Flags (D8, log entry 20); the bank fault (D10, log entry 22); BankNum and the mapped bank,
with the reload on every write (D11, log entry 23); the precise fault (D13, log entry 10); the register checked first
(D18, log entry 27). -/
def Obligations.ImmLoadsTheNamedRegister : Prop :=
  (∀ (r lo hi : Byte) (rest : List Byte),
      decode referenceTable (0x01#8 :: r :: lo :: hi :: rest) = .ok (.imm r (littleEndian lo hi), rest)) ∧
    ∀ (s : State) (r : Byte) (v : Word),
      (∀ d, Reg.ofByte? r = some d → writeAllowed s d v →
          exec (.imm r v) s = .next (advanceIP 4 (registerWritten s d v))) ∧
        (r = 6#8 → ¬writeAllowed s .BankNum v →
          exec (.imm r v) s = .fault (.outOfRangeBank ((v.toNat % 256 : Nat) : Int) { s with halted := true })) ∧
        (7 < r.toNat → exec (.imm r v) s = .fault (.invalidRegister r { s with halted := true }))

/-- MOV dst, src: copies with truncation or zero extension, never InvalidRegister, then advances by 2. 02 p decodes to
MOV with the two fields of p. With the write allowed, MOV answers the state with register dst written with the 16-bit
value of src (IP reading as the instruction's own address) and then IP advanced by 2; a Preloaded bank number out of
range faults. The opcode bytes are those of the reference table, a decision the spec marks as its own (D2, log entry
15). What IP reads as, and the advance from a written IP, are D4 (log entry 16). Clauses also rest on these decisions
of the spec: the advance by single increments (D6, log entry 18); SP modulo 0x8000 (D7, log entry 19); the widths of
BankNum and Flags (D8, log entry 20); the bank fault (D10, log entry 22); BankNum and the mapped bank, with the reload
on every write (D11, log entry 23); the precise fault (D13, log entry 10). -/
def Obligations.MovCopiesSourceToDestination : Prop :=
  (∀ (dst src : Reg) (rest : List Byte),
      decode referenceTable (0x02#8 :: BitVec.ofNat 8 (src.index * 8 + dst.index) :: rest) =
        .ok (.mov dst src, rest)) ∧
    ∀ (s : State) (dst src : Reg),
      (writeAllowed s dst (getReg s src) →
          exec (.mov dst src) s = .next (advanceIP 2 (registerWritten s dst (getReg s src)))) ∧
        (¬writeAllowed s dst (getReg s src) →
          exec (.mov dst src) s =
            .fault (.outOfRangeBank (((getReg s src).toNat % 256 : Nat) : Int) { s with halted := true }))

/-- LDA reg and LDB reg load a little-endian word through a register, or fault on r above 7. 03 r decodes to LDA and
04 r to LDB. With r in 0..7, LDA answers the state with A the little-endian word at x[r] and (x[r] + 1) mod 65536, LDB
the same with B, IP advanced by 2, nothing else changed but by that advance; with r above 7 both fault with
InvalidRegister. The opcode bytes are those of the reference table, a decision the spec marks as its own (D2, log
entry 15). The second byte's address is D15 (log entry 24), the order of the fault D18 (log entry 27). Clauses also
rest on these decisions of the spec: what IP reads as (D4, log entry 16); the advance by single increments (D6, log
entry 18); what BankNum and Flags read as (D8, log entry 20); the precise fault (D13, log entry 10). -/
def Obligations.LoadsReadThroughTheRegister : Prop :=
  (∀ (r : Byte) (rest : List Byte),
      decode referenceTable (0x03#8 :: r :: rest) = .ok (.lda r, rest) ∧
        decode referenceTable (0x04#8 :: r :: rest) = .ok (.ldb r, rest)) ∧
    ∀ (s : State) (r : Byte),
      (∀ g, Reg.ofByte? r = some g →
          exec (.lda r) s =
              .next (advanceIP 2
                { s with a := littleEndian (readByte s (getReg s g)) (readByte s (getReg s g + 1#16)) }) ∧
            exec (.ldb r) s =
              .next (advanceIP 2
                { s with b := littleEndian (readByte s (getReg s g)) (readByte s (getReg s g + 1#16)) })) ∧
        (7 < r.toNat →
          exec (.lda r) s = .fault (.invalidRegister r { s with halted := true }) ∧
            exec (.ldb r) s = .fault (.invalidRegister r { s with halted := true }))

/-- STA reg and STB reg store a little-endian word through a register, or fault on r above 7. 05 r decodes to STA and
06 r to STB. With r in 0..7 each answers the state with MemWrite(x[r], 2, A or B) done and IP advanced by 2; with RAM
in form its bytes read back at x[r] and (x[r] + 1) mod 65536 where those lie below 0x8000; with r above 7 both fault
with InvalidRegister. The opcode bytes are those of the reference table, a decision the spec marks as its own (D2, log
entry 15). The second byte's address is D15 (log entry 24), the order of the fault D18 (log entry 27). Clauses also
rest on these decisions of the spec: what IP reads as (D4, log entry 16); the advance by single increments (D6, log
entry 18); what BankNum and Flags read as (D8, log entry 20); the precise fault (D13, log entry 10). -/
def Obligations.StoresWriteThroughTheRegister : Prop :=
  (∀ (r : Byte) (rest : List Byte),
      decode referenceTable (0x05#8 :: r :: rest) = .ok (.sta r, rest) ∧
        decode referenceTable (0x06#8 :: r :: rest) = .ok (.stb r, rest)) ∧
    ∀ (s : State) (r : Byte),
      (∀ g, Reg.ofByte? r = some g →
          ∃ ta tb, exec (.sta r) s = .next (advanceIP 2 ta) ∧ exec (.stb r) s = .next (advanceIP 2 tb) ∧
            ta = writeWord s (getReg s g) s.a ∧ tb = writeWord s (getReg s g) s.b ∧
            (s.ram.wf = true → (getReg s g).toNat < 0x8000 →
              readByte ta (getReg s g) = BitVec.ofNat 8 (s.a.toNat % 256) ∧
                readByte tb (getReg s g) = BitVec.ofNat 8 (s.b.toNat % 256)) ∧
            (s.ram.wf = true → (getReg s g + 1#16).toNat < 0x8000 →
              readByte ta (getReg s g + 1#16) = BitVec.ofNat 8 (s.a.toNat / 256) ∧
                readByte tb (getReg s g + 1#16) = BitVec.ofNat 8 (s.b.toNat / 256))) ∧
        (7 < r.toNat →
          exec (.sta r) s = .fault (.invalidRegister r { s with halted := true }) ∧
            exec (.stb r) s = .fault (.invalidRegister r { s with halted := true }))

/-- PUSH reg writes the register's word at SP and nextSP(SP), keeps SP, advances by 2. 07 r decodes to PUSH. With r in
0..7 PUSH answers the state with StkWrite(SP, x[r]) done and IP advanced by 2; SP is as before, and with RAM in form
the stack word at SP is x[r]; with r above 7 it faults with InvalidRegister and nothing is written. The opcode bytes
are those of the reference table, a decision the spec marks as its own (D2, log entry 15). That SP is kept is D20 (log
entry 29). Clauses also rest on these decisions of the spec: what IP reads as (D4, log entry 16); the advance by
single increments (D6, log entry 18); what BankNum and Flags read as (D8, log entry 20); the precise fault (D13, log
entry 10); the register checked first (D18, log entry 27). -/
def Obligations.PushStoresAtSpAndKeepsIt : Prop :=
  (∀ (r : Byte) (rest : List Byte), decode referenceTable (0x07#8 :: r :: rest) = .ok (.push r, rest)) ∧
    ∀ (s : State) (r : Byte),
      (∀ g, Reg.ofByte? r = some g →
          ∃ t, exec (.push r) s = .next (advanceIP 2 t) ∧ t = writeStack s s.sp (getReg s g) ∧
            (advanceIP 2 t).sp = s.sp ∧ (s.ram.wf = true → readStack (advanceIP 2 t) s.sp = getReg s g)) ∧
        (7 < r.toNat → exec (.push r) s = .fault (.invalidRegister r { s with halted := true }))

/-- POP reg loads the register with the stack word at SP, keeps SP but for r = 4, advances by 2. 08 r decodes to POP.
With r in 0..7 and the write allowed POP answers the state with register r written with StkRead(SP) and IP then
advanced by 2; SP is as before unless r is 4; a Preloaded bank number out of range faults, as does r above 7. The
opcode bytes are those of the reference table, a decision the spec marks as its own (D2, log entry 15). That SP is
kept is D20 (log entry 29). Clauses also rest on these decisions of the spec: what IP reads as, and the advance from a
written IP (D4, log entry 16); the advance by single increments (D6, log entry 18); SP modulo 0x8000 (D7, log entry
19); the widths of BankNum and Flags (D8, log entry 20); the bank fault (D10, log entry 22); BankNum and the mapped
bank, with the reload on every write (D11, log entry 23); the precise fault (D13, log entry 10); the register checked
first (D18, log entry 27). -/
def Obligations.PopReadsAtSpAndKeepsIt : Prop :=
  (∀ (r : Byte) (rest : List Byte), decode referenceTable (0x08#8 :: r :: rest) = .ok (.pop r, rest)) ∧
    ∀ (s : State) (r : Byte),
      (∀ g, Reg.ofByte? r = some g → writeAllowed s g (readStack s s.sp) →
          exec (.pop r) s = .next (advanceIP 2 (registerWritten s g (readStack s s.sp))) ∧
            (g ≠ .SP → (advanceIP 2 (registerWritten s g (readStack s s.sp))).sp = s.sp)) ∧
        (r = 6#8 → ¬writeAllowed s .BankNum (readStack s s.sp) →
          exec (.pop r) s =
            .fault (.outOfRangeBank (((readStack s s.sp).toNat % 256 : Nat) : Int) { s with halted := true })) ∧
        (7 < r.toNat → exec (.pop r) s = .fault (.invalidRegister r { s with halted := true }))

/-- ADD, SUB, MUL, DIV: results modulo 65536 on the stack words below SP, DIV by zero 0xFFFF. 09, 0A, 0B, 0C decode to
ADD, SUB, MUL, DIV. With b the stack word at SP - 2 and a the one at SP - 4 each answers the state with its result
stored at SP - 4, SP two lower and IP advanced by 1: (a + b), (a - b), (a * b) modulo 65536, and for DIV 0xFFFF where
b is 0, else the unsigned quotient. Nothing else changes but by that advance. The opcode bytes are those of the
reference table, a decision the spec marks as its own (D2, log entry 15). That DIV is unsigned is D25 (log entry 30).
-/
def Obligations.ArithmeticResults : Prop :=
  (∀ rest : List Byte,
      decode referenceTable (0x09#8 :: rest) = .ok (.add, rest) ∧ decode referenceTable (0x0A#8 :: rest) = .ok (.sub, rest) ∧
        decode referenceTable (0x0B#8 :: rest) = .ok (.mul, rest) ∧ decode referenceTable (0x0C#8 :: rest) = .ok (.div, rest)) ∧
    ∀ (s : State) (a b : Word), a = readStack s (s.sp - 4#15) → b = readStack s (s.sp - 2#15) →
      exec .add s = .next (advanceIP 1
          { writeStack s (s.sp - 4#15) (BitVec.ofNat 16 ((a.toNat + b.toNat) % 65536)) with sp := s.sp - 2#15 }) ∧
        exec .sub s = .next (advanceIP 1
          { writeStack s (s.sp - 4#15) (BitVec.ofNat 16 ((a.toNat + 65536 - b.toNat) % 65536)) with sp := s.sp - 2#15 }) ∧
        exec .mul s = .next (advanceIP 1
          { writeStack s (s.sp - 4#15) (BitVec.ofNat 16 (a.toNat * b.toNat % 65536)) with sp := s.sp - 2#15 }) ∧
        exec .div s = .next (advanceIP 1
          { writeStack s (s.sp - 4#15) (if b = 0#16 then 0xFFFF#16 else BitVec.ofNat 16 (a.toNat / b.toNat))
              with sp := s.sp - 2#15 })

/-- AND, OR, XOR: bit by bit on the stack words below SP. 0D, 0E, 0F decode to AND, OR, XOR. With b the stack word at
SP - 2 and a the one at SP - 4 each answers a state whose 16 result bits, stored at SP - 4, are the and, or, exclusive
or of the bits of a and b, with SP two lower and IP advanced by 1; nothing else changes but by that advance. The
opcode bytes are those of the reference table, a decision the spec marks as its own (D2, log entry 15). -/
def Obligations.LogicResults : Prop :=
  (∀ rest : List Byte,
      decode referenceTable (0x0D#8 :: rest) = .ok (.and, rest) ∧ decode referenceTable (0x0E#8 :: rest) = .ok (.or, rest) ∧
        decode referenceTable (0x0F#8 :: rest) = .ok (.xor, rest)) ∧
    ∀ (s : State) (a b : Word), a = readStack s (s.sp - 4#15) → b = readStack s (s.sp - 2#15) →
      ∃ vand vor vxor : Word,
        (∀ k : Nat, k < 16 →
          vand.getLsbD k = (a.getLsbD k && b.getLsbD k) ∧ vor.getLsbD k = (a.getLsbD k || b.getLsbD k) ∧
            vxor.getLsbD k = (a.getLsbD k != b.getLsbD k)) ∧
          exec .and s = .next (advanceIP 1 { writeStack s (s.sp - 4#15) vand with sp := s.sp - 2#15 }) ∧
          exec .or s = .next (advanceIP 1 { writeStack s (s.sp - 4#15) vor with sp := s.sp - 2#15 }) ∧
          exec .xor s = .next (advanceIP 1 { writeStack s (s.sp - 4#15) vxor with sp := s.sp - 2#15 })

/-- The seven MathOperations: result over a, b kept, SP at b, flags and registers kept. For each of the seven
operations there is one function f of two words such that in every state with RAM in form the operation answers a next
state in which the stack word at the old SP - 4 is f(a, b), the word at the old SP - 2 is still b, SP is the old SP -
2, every address but the two of the result reads as before in RAM, Flags, A, B, X, Y and BankNum are as before, IP is
advanced by 1, and nothing else has changed but by that advance. The seven functions are stated by ArithmeticResults
and LogicResults. That BankNum is as before where a Streaming machine advances past 0xFFFF is a decision the spec
marks as its own (D11, log entry 23). -/
def Obligations.MathOperationStackLayout : Prop :=
  ∀ i : Instr, (i = .add ∨ i = .sub ∨ i = .mul ∨ i = .div ∨ i = .and ∨ i = .or ∨ i = .xor) →
    ∃ f : Word → Word → Word, ∀ s : State, s.ram.wf = true →
      ∃ (t : State) (m : Memory), exec i s = .next t ∧
        t = advanceIP 1 { s with ram := m, sp := nextSP (nextSP (prevSP (prevSP (prevSP (prevSP s.sp))))) } ∧
        readStack t (prevSP (prevSP (prevSP (prevSP s.sp)))) =
          f (readStack s (prevSP (prevSP (prevSP (prevSP s.sp))))) (readStack s (prevSP (prevSP s.sp))) ∧
        readStack t (prevSP (prevSP s.sp)) = readStack s (prevSP (prevSP s.sp)) ∧
        t.sp = prevSP (prevSP s.sp) ∧ t.flags = s.flags ∧ t.a = s.a ∧ t.b = s.b ∧ t.x = s.x ∧ t.y = s.y ∧
        t.bankNum = s.bankNum ∧
        ∀ q : StackPtr, q ≠ prevSP (prevSP (prevSP (prevSP s.sp))) → q ≠ prevSP (prevSP (prevSP s.sp)) →
          readByte t (stackAddr q) = readByte s (stackAddr q)

/-- NOT complements the stack word just below SP in place and leaves SP as it was. 10 decodes to NOT. NOT answers the
state with the stack word at SP - 2 replaced by its complement 65535 - w and IP advanced by 1; SP is as before,
nothing else changes but by that advance, and with RAM in form the word at SP - 2 then reads 65535 - w. The opcode
bytes are those of the reference table, a decision the spec marks as its own (D2, log entry 15). -/
def Obligations.NotComplementsTheTopWord : Prop :=
  (∀ rest : List Byte, decode referenceTable (0x10#8 :: rest) = .ok (.not, rest)) ∧
    ∀ (s : State) (w : Word), w = readStack s (s.sp - 2#15) →
      exec .not s = .next (advanceIP 1 (writeStack s (s.sp - 2#15) (BitVec.ofNat 16 (65535 - w.toNat)))) ∧
        (s.ram.wf = true → ∃ t, exec .not s = .next t ∧ t.sp = s.sp ∧
          (readStack t (s.sp - 2#15)).toNat = 65535 - w.toNat)

/-- CMP sets exactly one of Flags bits 2..0 by the unsigned order, keeps bits 7..3, retreats SP by 4. 11 decodes to
CMP. With b the stack word at SP - 2 and a the one at SP - 4, CMP answers the state with Flags[2:0] = 1, 2 or 4 as a =
b, a > b or a < b (unsigned), Flags[7:3] kept, SP four lower and IP advanced by 1; memory is not written, and nothing
else changes but by that advance. The opcode bytes are those of the reference table, a decision the spec marks as its
own (D2, log entry 15). That CMP is unsigned is D25 (log entry 30). Clauses also rest on these decisions of the spec:
Flags bits 7..3 stored (D8, log entry 20). -/
def Obligations.CompareSetsExactlyOneFlag : Prop :=
  (∀ rest : List Byte, decode referenceTable (0x11#8 :: rest) = .ok (.cmp, rest)) ∧
    ∀ (s : State) (a b : Word), a = readStack s (s.sp - 4#15) → b = readStack s (s.sp - 2#15) →
      exec .cmp s = .next (advanceIP 1
        { s with
          flags := BitVec.ofNat 8 (s.flags.toNat / 8 * 8 +
            (if a.toNat = b.toNat then 1 else if b.toNat < a.toNat then 2 else 4))
          sp := s.sp - 4#15 })

/-- The six address jumps: taken exactly on their literal Flags pattern, else IP advances by 3. 12..17 lo hi decode to
JE, JNE, JGT, JLT, JGE, JLE with the little-endian target. Each answers the state with IP at the target exactly when
Flags modulo 8 is 1, 0, 2, 4, 3, 5 respectively, and with IP advanced by 3 otherwise; nothing else changes but by that
advance. The opcode bytes are those of the reference table, a decision the spec marks as its own (D2, log entry 15).
Clauses also rest on these decisions of the spec: the advance by single increments (D6, log entry 18). -/
def Obligations.AddressJumpsMatchOnePattern : Prop :=
  (∀ (lo hi : Byte) (rest : List Byte),
      decode referenceTable (0x12#8 :: lo :: hi :: rest) = .ok (.jeAddr (littleEndian lo hi), rest) ∧
        decode referenceTable (0x13#8 :: lo :: hi :: rest) = .ok (.jneAddr (littleEndian lo hi), rest) ∧
        decode referenceTable (0x14#8 :: lo :: hi :: rest) = .ok (.jgtAddr (littleEndian lo hi), rest) ∧
        decode referenceTable (0x15#8 :: lo :: hi :: rest) = .ok (.jltAddr (littleEndian lo hi), rest) ∧
        decode referenceTable (0x16#8 :: lo :: hi :: rest) = .ok (.jgeAddr (littleEndian lo hi), rest) ∧
        decode referenceTable (0x17#8 :: lo :: hi :: rest) = .ok (.jleAddr (littleEndian lo hi), rest)) ∧
    ∀ (s : State) (t : Word),
      exec (.jeAddr t) s = .next (if s.flags.toNat % 8 = 1 then { s with ip := t } else advanceIP 3 s) ∧
        exec (.jneAddr t) s = .next (if s.flags.toNat % 8 = 0 then { s with ip := t } else advanceIP 3 s) ∧
        exec (.jgtAddr t) s = .next (if s.flags.toNat % 8 = 2 then { s with ip := t } else advanceIP 3 s) ∧
        exec (.jltAddr t) s = .next (if s.flags.toNat % 8 = 4 then { s with ip := t } else advanceIP 3 s) ∧
        exec (.jgeAddr t) s = .next (if s.flags.toNat % 8 = 3 then { s with ip := t } else advanceIP 3 s) ∧
        exec (.jleAddr t) s = .next (if s.flags.toNat % 8 = 5 then { s with ip := t } else advanceIP 3 s)

/-- The six register jumps: to x[r] exactly on their literal Flags pattern, else advance by 2; r above 7 always
faults. 18..1D r decode to the register forms of JE, JNE, JGT, JLT, JGE, JLE. With r in 0..7 each answers the state
with IP at x[r] exactly when Flags modulo 8 is 1, 0, 2, 4, 3, 5 respectively, and with IP advanced by 2 otherwise;
with r above 7 each faults with InvalidRegister whatever the Flags. The opcode bytes are those of the reference table,
a decision the spec marks as its own (D2, log entry 15). That the register is read first is D18 (log entry 27).
Clauses also rest on these decisions of the spec: what IP reads as (D4, log entry 16); the advance by single
increments (D6, log entry 18); what BankNum and Flags read as (D8, log entry 20); the precise fault (D13, log entry
10). -/
def Obligations.RegisterJumpsMatchOnePattern : Prop :=
  (∀ (r : Byte) (rest : List Byte),
      decode referenceTable (0x18#8 :: r :: rest) = .ok (.jeReg r, rest) ∧
        decode referenceTable (0x19#8 :: r :: rest) = .ok (.jneReg r, rest) ∧
        decode referenceTable (0x1a#8 :: r :: rest) = .ok (.jgtReg r, rest) ∧
        decode referenceTable (0x1b#8 :: r :: rest) = .ok (.jltReg r, rest) ∧
        decode referenceTable (0x1c#8 :: r :: rest) = .ok (.jgeReg r, rest) ∧
        decode referenceTable (0x1d#8 :: r :: rest) = .ok (.jleReg r, rest)) ∧
    ∀ (s : State) (r : Byte),
      (∀ g, Reg.ofByte? r = some g →
          exec (.jeReg r) s =
              .next (if s.flags.toNat % 8 = 1 then { s with ip := getReg s g } else advanceIP 2 s) ∧
            exec (.jneReg r) s =
              .next (if s.flags.toNat % 8 = 0 then { s with ip := getReg s g } else advanceIP 2 s) ∧
            exec (.jgtReg r) s =
              .next (if s.flags.toNat % 8 = 2 then { s with ip := getReg s g } else advanceIP 2 s) ∧
            exec (.jltReg r) s =
              .next (if s.flags.toNat % 8 = 4 then { s with ip := getReg s g } else advanceIP 2 s) ∧
            exec (.jgeReg r) s =
              .next (if s.flags.toNat % 8 = 3 then { s with ip := getReg s g } else advanceIP 2 s) ∧
            exec (.jleReg r) s =
              .next (if s.flags.toNat % 8 = 5 then { s with ip := getReg s g } else advanceIP 2 s)) ∧
        (7 < r.toNat →
          exec (.jeReg r) s = .fault (.invalidRegister r { s with halted := true }) ∧
            exec (.jneReg r) s = .fault (.invalidRegister r { s with halted := true }) ∧
            exec (.jgtReg r) s = .fault (.invalidRegister r { s with halted := true }) ∧
            exec (.jltReg r) s = .fault (.invalidRegister r { s with halted := true }) ∧
            exec (.jgeReg r) s = .fault (.invalidRegister r { s with halted := true }) ∧
            exec (.jleReg r) s = .fault (.invalidRegister r { s with halted := true }))

/-- After CMP: JE, JGT, JLT are taken exactly on a = b, a > b, a < b; JNE, JGE, JLE never. In the state CMP leaves,
JE, JGT and JLT (address form) are taken exactly when the compared words are equal, a greater, a less (unsigned), and
JNE, JGE, JLE are not taken: each answers the advance by 3. That CMP is unsigned is D25 (log entry 30). Clauses also
rest on these decisions of the spec: the advance by single increments (D6, log entry 18). -/
def Obligations.JumpsAfterCompare : Prop :=
  ∀ (s s' : State) (t a b : Word), exec .cmp s = .next s' →
    a = readStack s (s.sp - 4#15) → b = readStack s (s.sp - 2#15) →
    exec (.jeAddr t) s' = .next (if a = b then { s' with ip := t } else advanceIP 3 s') ∧
      exec (.jgtAddr t) s' = .next (if b.toNat < a.toNat then { s' with ip := t } else advanceIP 3 s') ∧
      exec (.jltAddr t) s' = .next (if a.toNat < b.toNat then { s' with ip := t } else advanceIP 3 s') ∧
      exec (.jneAddr t) s' = .next (advanceIP 3 s') ∧ exec (.jgeAddr t) s' = .next (advanceIP 3 s') ∧
      exec (.jleAddr t) s' = .next (advanceIP 3 s')

/-- PUSH r1 followed at once by POP r2 copies r1 to r2, and two PUSHes overwrite each other. With RAM in form: after
PUSH of register g1, a POP into A, B, X or Y gives it the value g1 had before the PUSH; after PUSH of g1 and then of
g2, the stack word at SP is the value g2 had in between, and SP is as at first. That PUSH and POP keep SP is D20 (log
entry 29). Clauses also rest on these decisions of the spec: what IP reads as (D4, log entry 16); the advance by
single increments (D6, log entry 18); what BankNum and Flags read as (D8, log entry 20). -/
def Obligations.PushThenPopCopiesARegister : Prop :=
  ∀ (s s1 : State) (r1 r2 : Byte) (g1 g2 : Reg), s.ram.wf = true →
    Reg.ofByte? r1 = some g1 → Reg.ofByte? r2 = some g2 → exec (.push r1) s = .next s1 →
    (g2 = .A ∨ g2 = .B ∨ g2 = .X ∨ g2 = .Y →
        ∃ s2, exec (.pop r2) s1 = .next s2 ∧ getReg s2 g2 = getReg s g1) ∧
      ∃ s2, exec (.push r2) s1 = .next s2 ∧ s2.sp = s.sp ∧ readStack s2 s.sp = getReg s1 g2

/-- WRITE emits the bytes before the first zero byte as one Output event, and changes nothing else but by the advance
of IP. 1E lo hi decodes to WRITE addr and 1F r to WRITE reg. Where a text and then a zero byte stand at the target
(empty text included, wrapping past 0xFFFF), WRITE appends Output(text) to the trace and advances IP by its length;
where no byte of the address space is zero it never completes, which the model answers by its stuck outcome; WRITE reg
with r above 7 faults. The opcode bytes are those of the reference table, a decision the spec marks as its own (D2,
log entry 15). The empty text, the wrap and the stuck step are D16 (log entry 25). Clauses also rest on these
decisions of the spec: what IP reads as (D4, log entry 16); the advance by single increments (D6, log entry 18); what
BankNum and Flags read as (D8, log entry 20); the precise fault (D13, log entry 10); the register checked first (D18,
log entry 27). The trace as the record of events is D19 (log entry 28). -/
def Obligations.WriteEmitsTextUpToZero : Prop :=
  (∀ (lo hi : Byte) (rest : List Byte),
      decode referenceTable (0x1e#8 :: lo :: hi :: rest) = .ok (.writeAddr (littleEndian lo hi), rest) ∧
        decode referenceTable (0x1f#8 :: lo :: rest) = .ok (.writeReg lo, rest)) ∧
    ∀ s : State,
      (∀ (t : Word) (text : List Byte), textAt s t text →
          exec (.writeAddr t) s = .next (advanceIP 3 { s with trace := s.trace ++ [.output text] }) ∧
            ∀ (r : Byte) (g : Reg), Reg.ofByte? r = some g → getReg s g = t →
              exec (.writeReg r) s = .next (advanceIP 2 { s with trace := s.trace ++ [.output text] })) ∧
        (∀ t : Word, (∀ a : Word, readByte s a ≠ 0x00#8) →
          exec (.writeAddr t) s = .fault (.writeNeverCompletes t)) ∧
        ∀ r : Byte, 7 < r.toNat → exec (.writeReg r) s = .fault (.invalidRegister r { s with halted := true })

/-- READ with an input string ready stores its bytes and a zero byte from the target on, and advances IP. With a
string at the head of the environment's ready inputs (the model's own field, log entry 8), READ addr, and READ reg
with r in 0..7, answer a next state: the string is consumed, and with RAM in form and a string shorter than 65536
bytes each byte k of it, and the zero byte after it, reads back at (t + k) mod 65536 where that lies below 0x8000;
every other address reads as before in RAM; registers but IP are kept. The form of the text and the wrap are D17 (log
entry 26). Clauses also rest on these decisions of the spec: what IP reads as (D4, log entry 16); the advance by
single increments (D6, log entry 18); what BankNum and Flags read as (D8, log entry 20). That BankNum is kept where a
Streaming machine advances past 0xFFFF is D11 (log entry 23). -/
def Obligations.ReadStoresTheInputText : Prop :=
  ∀ (s : State) (text : List Byte) (later : List (List Byte)) (t : Word), s.inputs = text :: later →
    ∃ u : State, u.inputs = later ∧ (∃ m : Memory, u = { s with inputs := later, ram := m }) ∧
      exec (.readAddr t) s = .next (advanceIP 3 u) ∧
      (∀ (r : Byte) (g : Reg), Reg.ofByte? r = some g → getReg s g = t →
        exec (.readReg r) s = .next (advanceIP 2 u)) ∧
      (s.ram.wf = true → text.length < 65536 →
        u.ram.wf = true ∧
          (∀ k (hk : k < text.length), (t + BitVec.ofNat 16 k).toNat < 0x8000 →
            readByte u (t + BitVec.ofNat 16 k) = text[k]) ∧
          ((t + BitVec.ofNat 16 text.length).toNat < 0x8000 →
            readByte u (t + BitVec.ofNat 16 text.length) = 0x00#8) ∧
          ∀ b : Word, (∀ k : Nat, k ≤ text.length → b ≠ t + BitVec.ofNat 16 k) → readByte u b = readByte s b)

/-- READ with no input ready waits at its own address; resumeWithInput then completes it as if it had not waited. With
no string ready, READ addr and READ reg answer the state with Pending set to the target and nothing else changed; on
that state resumeWithInput(text) answers exactly what the READ answers in one step when text is ready. READ reg with r
above 7 faults before any input is requested. resumeWithInput while nothing waits is refused (the model's choice, log
entry 11). That the fault comes before the request is D18 (log entry 27). Clauses also rest on these decisions of the
spec: what IP reads as (D4, log entry 16); the advance by single increments (D6, log entry 18); what BankNum and Flags
read as (D8, log entry 20); the precise fault (D13, log entry 10); the wrap of a READ (D17, log entry 26). In R205 a
READ always waits; the premise that no string is ready, and the READ that completes in one step when one is, are the
model's (log entry 8), and the length that Pending holds beside the target is DEDUCED (log entry 33). -/
def Obligations.ReadWaitsAndResumes : Prop :=
  ∀ (s : State) (t : Word) (r : Byte) (text : List Byte), s.halted = false → s.pending = none →
    (s.inputs = [] →
      (∃ w, exec (.readAddr t) s = .next w ∧ w = { s with pending := some { target := t, len := 3 } } ∧
          resumeWithInput text w = exec (.readAddr t) { s with inputs := [text] }) ∧
        ∀ g, Reg.ofByte? r = some g →
          ∃ w, exec (.readReg r) s = .next w ∧ w = { s with pending := some { target := getReg s g, len := 2 } } ∧
            resumeWithInput text w = exec (.readReg r) { s with inputs := [text] }) ∧
      (7 < r.toNat → exec (.readReg r) s = .fault (.invalidRegister r { s with halted := true })) ∧
      resumeWithInput text s = .refused .notPending

/-- A step of a waiting machine resumes the READ with the next ready string, or with a free one. While a READ waits,
step resumes it with the head of the ready inputs, consumed; where none is ready, with a string that is a free value
of the configuration, numbered by the count of draws, which then goes up by one. No instruction is fetched. R205 does
not allow step() while Pending is set: that the step of a waiting machine stands for the environment's
resumeWithInput, and where its string comes from, is the model's choice (log entry 8), and so is the count of draws
(log entry 9); resumeWithInput itself is R205's. -/
def Obligations.StepAnswersAWaitingRead : Prop :=
  ∀ (s : State) (p : PendingRead), s.halted = false → s.pending = some p →
    (∀ text later, s.inputs = text :: later → step s = resumeWithInput text { s with inputs := later }) ∧
      (s.inputs = [] → ∃ text, text = Config.inputText s.draws ∧
        step s = resumeWithInput text { s with draws := s.draws + 1 })

/-- SP is changed only by writes to register 4, by the seven MathOperations and by CMP. If an instruction answers a
next state with another SP, it is IMM, MOV or POP with destination SP, one of the seven MathOperations, or CMP; a
MathOperation takes SP to prevSP^2(SP), CMP to prevSP^4(SP), PUSH and NOT leave it, and so does POP unless its
destination is SP. That PUSH and POP leave SP is D20 (log entry 29). -/
def Obligations.SpChangesOnlyAsListed : Prop :=
  ∀ (i : Instr) (s s' : State), exec i s = .next s' →
    (s'.sp ≠ s.sp →
        (∃ v, i = .imm 4#8 v) ∨ (∃ src, i = .mov .SP src) ∨ i = .pop 4#8 ∨ i = .cmp ∨
          i = .add ∨ i = .sub ∨ i = .mul ∨ i = .div ∨ i = .and ∨ i = .or ∨ i = .xor) ∧
      (i = .add ∨ i = .sub ∨ i = .mul ∨ i = .div ∨ i = .and ∨ i = .or ∨ i = .xor → s'.sp = prevSP (prevSP s.sp)) ∧
      (i = .cmp → s'.sp = prevSP (prevSP (prevSP (prevSP s.sp)))) ∧
      ((∃ r, i = .push r) ∨ i = .not ∨ (∃ r, r ≠ 4#8 ∧ i = .pop r) → s'.sp = s.sp)

/-- Flags is written only by CMP, in bits 2..0, and by writes to register 7. If an instruction answers a next state
with other Flags, it is CMP, or IMM, MOV or POP with destination Flags; and CMP leaves bits 7..3 as they were. That
bits 7..3 are stored is D8 (log entry 20). -/
def Obligations.FlagsChangeOnlyAsListed : Prop :=
  ∀ (i : Instr) (s s' : State), exec i s = .next s' →
    (s'.flags ≠ s.flags → i = .cmp ∨ (∃ v, i = .imm 7#8 v) ∨ (∃ src, i = .mov .Flags src) ∨ i = .pop 7#8) ∧
      (i = .cmp → s'.flags.toNat / 8 = s.flags.toNat / 8)

/-- An instruction leaves every register but its destinations and IP as it was. For every instruction that answers a
next state: each of A, B, X, Y, SP, BankNum, Flags that is none of its destinations (its Register or MOV destination,
A for LDA, B for LDB, SP for the MathOperations, SP and Flags for CMP) is unchanged; Halted and the parameters are
unchanged; Pending and the ready inputs are unchanged unless it is a READ. Clauses also rest on these decisions of the
spec: BankNum and the mapped bank, with the reload on every write (D11, log entry 23); SP kept by PUSH and POP (D20,
log entry 29). The parameters and the ready inputs as fields of the state are the model's (log entries 1 and 8). -/
def Obligations.RegisterFrame : Prop :=
  ∀ (i : Instr) (s s' : State), exec i s = .next s' →
    (∀ r : Reg, r ≠ .IP → r ∉ destinations i → getReg s' r = getReg s r) ∧
      s'.halted = s.halted ∧ s'.cfg = s.cfg ∧
      ((∀ t, i ≠ .readAddr t) → (∀ r, i ≠ .readReg r) → s'.pending = s.pending ∧ s'.inputs = s.inputs)

/-- An instruction leaves every byte of memory but those it stores to as it was. For every instruction that answers a
next state, and every address that is not one it stores to (the data word of STA and STB at x[r], the stack word of
PUSH at SP, of the MathOperations at SP - 4 and of NOT at SP - 2, the string and its zero byte of a READ that does not
wait; none for any other): a RAM address reads as before, and a window address reads as before unless the instruction
can map a bank (a write to BankNum, or a Streaming advance of IP past 0xFFFF). Clauses also rest on these decisions of
the spec: what IP reads as (D4, log entry 16); the advance by single increments (D6, log entry 18); what BankNum and
Flags read as (D8, log entry 20); BankNum and the mapped bank, with the reload on every write (D11, log entry 23); the
address of a word's second byte (D15, log entry 24); the wrap of a READ (D17, log entry 26); SP kept by PUSH and POP
(D20, log entry 29). -/
def Obligations.MemoryFrame : Prop :=
  ∀ (i : Instr) (s s' : State) (addr : Word), exec i s = .next s' → addr ∉ storedAddrs i s →
    addr.toNat < 0x8000 ∨ mayMapBank i s = false → readByte s' addr = readByte s addr

/-- The mapped bank changes only by a write to BankNum or a Streaming advance past 0xFFFF. For every instruction that
answers a next state and can map no bank (no write to BankNum; Preloaded, or no write to IP and IP + length at most
0xFFFF): BANKBUF, CurBank and the counter of free draws are unchanged, and the trace is unchanged unless the
instruction is a WRITE. It rests on D6 and D11 (log entries 18 and 23). The counter of free draws is the model's (log
entry 9). That the trace is unchanged by an instruction that stores to memory rests on the two memory notifications
being left out of it, a decision the spec marks as its own (D19, log entry 28). -/
def Obligations.BankFrame : Prop :=
  ∀ (i : Instr) (s s' : State), exec i s = .next s' → mayMapBank i s = false →
    s'.bankBuf = s.bankBuf ∧ s'.curBank = s.curBank ∧ s'.draws = s.draws ∧
      ((∀ t, i ≠ .writeAddr t) → (∀ r, i ≠ .writeReg r) → s'.trace = s.trace)

/-- The state after reset: zero registers, IP at RESET_IP, zero RAM, bank 0 mapped, nothing pending, empty trace. For
every configuration with RESET_IP = 0x8000 and RAM_INIT all zero, the state after reset has the values of the reset
table; the window shows bank 0. The reset of a running machine gives the same values. All of these values but Flags
bits 2..0 are decisions the spec marks as its own (D14, log entries 3, 4 and 5), and what the reset of a running
machine draws is log entry 35. -/
def Obligations.ResetValues : Prop :=
  ∀ (c : Config) (draw : Nat) (inputs : List (List Byte)) (s : State), c.resetIP = 0x8000#16 → c.ramInit = [] →
    s = State.resetWith c draw inputs →
    s.a = 0x0000#16 ∧ s.b = 0x0000#16 ∧ s.x = 0x0000#16 ∧ s.y = 0x0000#16 ∧ s.sp = 0x0000#15 ∧ s.ip = 0x8000#16 ∧
      s.bankNum = 0x00#8 ∧ s.flags = 0x00#8 ∧ (∀ addr : Word, addr.toNat < 0x8000 → readByte s addr = 0x00#8) ∧ s.curBank = 0 ∧
      s.bankBuf = loadBank c 0 draw ∧ s.halted = false ∧ s.pending = none ∧ s.trace = [] ∧
      ∀ u : State, u.cfg = c → resetMachine u = State.resetWith c u.draws u.inputs
end

