-- ==== Sys2Proof/Laws/Memory.lean ====
section
/-! SUPPORT. The laws of the sparse byte stores: read after write, the canonical form, slices; the bytes of a bank. -/

namespace Sys2Proof.Machine

@[simp] theorem Memory.read_nil (a : Nat) : Memory.read [] a = unlistedByte := rfl

/-- Below its lowest address a canonical store lists nothing. -/
theorem Memory.read_below {m : Memory} {lo hi a : Nat} (h : m.within lo hi = true) (ha : a < lo) :
    m.read a = unlistedByte := by
  induction m generalizing lo with
  | nil => rfl
  | cons c m ih =>
    obtain ⟨k, v⟩ := c
    simp only [Memory.within, Bool.and_eq_true, decide_eq_true_eq] at h
    simp only [Memory.read]
    rw [if_neg (by omega)]
    exact ih h.2 (by omega)

theorem Memory.within_mono {m : Memory} {lo lo' hi : Nat} (h : m.within lo hi = true) (hl : lo' ≤ lo) :
    m.within lo' hi = true := by
  cases m with
  | nil => rfl
  | cons c m =>
    obtain ⟨k, v⟩ := c
    simp only [Memory.within, Bool.and_eq_true, decide_eq_true_eq] at h ⊢
    exact ⟨⟨⟨by omega, h.1.1.2⟩, h.1.2⟩, h.2⟩

theorem Memory.put_within {m : Memory} {a hi : Nat} {v : Byte} (h : m.within (a + 1) hi = true) (ha : a < hi) :
    (Memory.put a v m).within a hi = true := by
  by_cases hv : v = unlistedByte
  · simpa [Memory.put, hv] using Memory.within_mono h (by omega)
  · simp [Memory.put, Memory.within, hv, ha, h]

/-- A write keeps the canonical form. -/
theorem Memory.write_within {m : Memory} {lo hi a : Nat} {v : Byte} (h : m.within lo hi = true) (hl : lo ≤ a)
    (ha : a < hi) : (m.write a v).within lo hi = true := by
  induction m generalizing lo with
  | nil => exact Memory.within_mono (Memory.put_within (hi := hi) rfl ha) hl
  | cons c m ih =>
    obtain ⟨k, w⟩ := c
    have h' := h
    simp only [Memory.within, Bool.and_eq_true, decide_eq_true_eq] at h'
    simp only [Memory.write]
    split
    · refine Memory.within_mono (Memory.put_within ?_ ha) hl
      simp only [Memory.within, Bool.and_eq_true, decide_eq_true_eq]
      exact ⟨⟨⟨by omega, h'.1.1.2⟩, h'.1.2⟩, h'.2⟩
    · split
      · subst a
        exact Memory.within_mono (Memory.put_within h'.2 ha) hl
      · simp only [Memory.within, Bool.and_eq_true, decide_eq_true_eq]
        exact ⟨h'.1, ih h'.2 (by omega)⟩

theorem Memory.write_wf {m : Memory} {a : Nat} {v : Byte} (h : m.wf = true) (ha : a < ramSize) :
    (m.write a v).wf = true :=
  Memory.write_within h (Nat.zero_le a) ha

theorem Memory.read_put_other {m : Memory} {a b : Nat} {v : Byte} (hb : b ≠ a) :
    (Memory.put a v m).read b = m.read b := by
  unfold Memory.put
  split
  · rfl
  · simp [Memory.read, Ne.symm hb]

/-- A write leaves every other address alone. -/
theorem Memory.read_write_other {m : Memory} {a b : Nat} {v : Byte} (hb : b ≠ a) :
    (m.write a v).read b = m.read b := by
  induction m with
  | nil => exact Memory.read_put_other hb
  | cons c m ih =>
    obtain ⟨k, w⟩ := c
    simp only [Memory.write]
    split
    · exact Memory.read_put_other hb
    · split
      · subst a
        rw [Memory.read_put_other hb]
        simp [Memory.read, Ne.symm hb]
      · simp [Memory.read, ih]

theorem Memory.read_put_same {m : Memory} {a hi : Nat} {v : Byte} (h : m.within (a + 1) hi = true) :
    (Memory.put a v m).read a = v := by
  by_cases hv : v = unlistedByte
  · rw [Memory.put, if_pos hv, hv]
    exact Memory.read_below h (by omega)
  · simp [Memory.put, hv, Memory.read]

/-- A read after a write to the same address gives the value written. -/
theorem Memory.read_write_same {m : Memory} {lo hi a : Nat} {v : Byte} (h : m.within lo hi = true) :
    (m.write a v).read a = v := by
  induction m generalizing lo with
  | nil => exact Memory.read_put_same (hi := hi) rfl
  | cons c m ih =>
    obtain ⟨k, w⟩ := c
    have h' := h
    simp only [Memory.within, Bool.and_eq_true, decide_eq_true_eq] at h'
    simp only [Memory.write]
    split
    · refine Memory.read_put_same (hi := hi) ?_
      simp only [Memory.within, Bool.and_eq_true, decide_eq_true_eq]
      exact ⟨⟨⟨by omega, h'.1.1.2⟩, h'.1.2⟩, h'.2⟩
    · split
      · subst a
        exact Memory.read_put_same h'.2
      · simp only [Memory.read]
        rw [if_neg (by omega)]
        exact ih h'.2

theorem Memory.foldl_cells_wf (cells : List Host.Cell) (m : Memory) (h : m.wf = true) :
    (cells.foldl (fun m c => if c.1 < ramSize then Memory.write m c.1 c.2 else m) m : Memory).wf = true := by
  induction cells generalizing m with
  | nil => exact h
  | cons c cells ih =>
    refine ih _ ?_
    dsimp only
    split
    · exact Memory.write_wf h ‹_›
    · exact h

/-- The store built from any list of cells is in form. -/
theorem Memory.ofCells_wf (cells : List Host.Cell) : (Memory.ofCells cells).wf = true :=
  Memory.foldl_cells_wf cells [] rfl

/-- A slice reads as the store does at the shifted address, and as unlisted past its end. -/
theorem Memory.read_slice (m : Memory) (base len o : Nat) :
    (m.slice base len).read o = if o < len then m.read (base + o) else unlistedByte := by
  induction m with
  | nil => simp [Memory.slice]
  | cons c m ih =>
    obtain ⟨k, v⟩ := c
    have ih' : Memory.read (List.filterMap (fun c : Host.Cell =>
        if base ≤ c.1 ∧ c.1 < base + len then some (c.1 - base, c.2) else none) m) o =
        if o < len then Memory.read m (base + o) else unlistedByte := ih
    simp only [Memory.slice, List.filterMap_cons, Memory.read]
    by_cases hk : base ≤ k ∧ k < base + len
    · rw [if_pos hk]
      simp only [Memory.read]
      by_cases ho : k - base = o
      · rw [if_pos ho, if_pos (by omega), if_pos (by omega)]
      · rw [if_neg ho, ih']
        by_cases hl : o < len
        · rw [if_pos hl, if_pos hl, if_neg (by omega)]
        · rw [if_neg hl, if_neg hl]
    · rw [if_neg hk]
      simp only [ih']
      by_cases hl : o < len
      · rw [if_pos hl, if_pos hl, if_neg (by omega)]
      · rw [if_neg hl, if_neg hl]

/-- A slice of a canonical store is canonical. -/
theorem Memory.slice_within {m : Memory} {lo hi : Nat} (base len : Nat) (h : m.within lo hi = true) :
    (m.slice base len).within (lo - base) len = true := by
  induction m generalizing lo with
  | nil => rfl
  | cons c m ih =>
    obtain ⟨k, v⟩ := c
    simp only [Memory.within, Bool.and_eq_true, decide_eq_true_eq] at h
    have ih' : Memory.within (k + 1 - base) len (List.filterMap (fun c : Host.Cell =>
        if base ≤ c.1 ∧ c.1 < base + len then some (c.1 - base, c.2) else none) m) = true := ih h.2
    simp only [Memory.slice, List.filterMap_cons]
    by_cases hk : base ≤ k ∧ k < base + len
    · rw [if_pos hk]
      simp only [Memory.within, Bool.and_eq_true, decide_eq_true_eq]
      refine ⟨⟨⟨by omega, by omega⟩, h.1.2⟩, ?_⟩
      exact Memory.within_mono ih' (by omega)
    · rw [if_neg hk]
      exact Memory.within_mono ih' (by omega)

/-- Past its length a ROM file in form lists nothing. -/
theorem Memory.read_beyond {m : Memory} {lo hi a : Nat} (h : m.within lo hi = true) (ha : hi ≤ a) :
    m.read a = unlistedByte := by
  induction m generalizing lo with
  | nil => rfl
  | cons c m ih =>
    obtain ⟨k, v⟩ := c
    simp only [Memory.within, Bool.and_eq_true, decide_eq_true_eq] at h
    simp only [Memory.read]
    rw [if_neg (by omega)]
    exact ih h.2

/-- A byte of bank `n`: the ROM file's where the source supplies it, else the refill's free byte. -/
theorem loadBank_read (c : Config) (n draw o : Nat) :
    (loadBank c n draw).read o =
      if o < bankSupplied c n then Memory.read c.romFile.cells (n * bankSize + o) else Config.shortFill draw o := by
  unfold BankBuf.read loadBank
  simp only
  split
  · rw [Memory.read_slice, if_pos ‹_›]
  · rfl

/-- The canonical form of a bank's cells. -/
theorem loadBank_cells_within {c : Config} (n draw : Nat) (h : c.romFile.wf = true) :
    (loadBank c n draw).cells.within 0 (bankSupplied c n) = true := by
  have := Memory.slice_within (n * bankSize) (bankSupplied c n) h
  rw [Nat.zero_sub] at this
  exact this

end Sys2Proof.Machine
end

