-- ==== Sys2Proof/Laws/State.lean ====
section
/-! SUPPORT. Each field after each named update of the state. -/

namespace Sys2Proof.Machine

@[simp] theorem State.withA_a (s : State) (v : Word) : (s.withA v).a = v := rfl
@[simp] theorem State.withA_b (s : State) (v : Word) : (s.withA v).b = s.b := rfl
@[simp] theorem State.withA_x (s : State) (v : Word) : (s.withA v).x = s.x := rfl
@[simp] theorem State.withA_y (s : State) (v : Word) : (s.withA v).y = s.y := rfl
@[simp] theorem State.withA_sp (s : State) (v : Word) : (s.withA v).sp = s.sp := rfl
@[simp] theorem State.withA_ip (s : State) (v : Word) : (s.withA v).ip = s.ip := rfl
@[simp] theorem State.withA_bankNum (s : State) (v : Word) : (s.withA v).bankNum = s.bankNum := rfl
@[simp] theorem State.withA_flags (s : State) (v : Word) : (s.withA v).flags = s.flags := rfl
@[simp] theorem State.withA_ram (s : State) (v : Word) : (s.withA v).ram = s.ram := rfl
@[simp] theorem State.withA_bankBuf (s : State) (v : Word) : (s.withA v).bankBuf = s.bankBuf := rfl
@[simp] theorem State.withA_curBank (s : State) (v : Word) : (s.withA v).curBank = s.curBank := rfl
@[simp] theorem State.withA_halted (s : State) (v : Word) : (s.withA v).halted = s.halted := rfl
@[simp] theorem State.withA_pending (s : State) (v : Word) : (s.withA v).pending = s.pending := rfl
@[simp] theorem State.withA_trace (s : State) (v : Word) : (s.withA v).trace = s.trace := rfl
@[simp] theorem State.withA_cfg (s : State) (v : Word) : (s.withA v).cfg = s.cfg := rfl
@[simp] theorem State.withA_inputs (s : State) (v : Word) : (s.withA v).inputs = s.inputs := rfl
@[simp] theorem State.withA_draws (s : State) (v : Word) : (s.withA v).draws = s.draws := rfl

@[simp] theorem State.withB_a (s : State) (v : Word) : (s.withB v).a = s.a := rfl
@[simp] theorem State.withB_b (s : State) (v : Word) : (s.withB v).b = v := rfl
@[simp] theorem State.withB_x (s : State) (v : Word) : (s.withB v).x = s.x := rfl
@[simp] theorem State.withB_y (s : State) (v : Word) : (s.withB v).y = s.y := rfl
@[simp] theorem State.withB_sp (s : State) (v : Word) : (s.withB v).sp = s.sp := rfl
@[simp] theorem State.withB_ip (s : State) (v : Word) : (s.withB v).ip = s.ip := rfl
@[simp] theorem State.withB_bankNum (s : State) (v : Word) : (s.withB v).bankNum = s.bankNum := rfl
@[simp] theorem State.withB_flags (s : State) (v : Word) : (s.withB v).flags = s.flags := rfl
@[simp] theorem State.withB_ram (s : State) (v : Word) : (s.withB v).ram = s.ram := rfl
@[simp] theorem State.withB_bankBuf (s : State) (v : Word) : (s.withB v).bankBuf = s.bankBuf := rfl
@[simp] theorem State.withB_curBank (s : State) (v : Word) : (s.withB v).curBank = s.curBank := rfl
@[simp] theorem State.withB_halted (s : State) (v : Word) : (s.withB v).halted = s.halted := rfl
@[simp] theorem State.withB_pending (s : State) (v : Word) : (s.withB v).pending = s.pending := rfl
@[simp] theorem State.withB_trace (s : State) (v : Word) : (s.withB v).trace = s.trace := rfl
@[simp] theorem State.withB_cfg (s : State) (v : Word) : (s.withB v).cfg = s.cfg := rfl
@[simp] theorem State.withB_inputs (s : State) (v : Word) : (s.withB v).inputs = s.inputs := rfl
@[simp] theorem State.withB_draws (s : State) (v : Word) : (s.withB v).draws = s.draws := rfl

@[simp] theorem State.withX_a (s : State) (v : Word) : (s.withX v).a = s.a := rfl
@[simp] theorem State.withX_b (s : State) (v : Word) : (s.withX v).b = s.b := rfl
@[simp] theorem State.withX_x (s : State) (v : Word) : (s.withX v).x = v := rfl
@[simp] theorem State.withX_y (s : State) (v : Word) : (s.withX v).y = s.y := rfl
@[simp] theorem State.withX_sp (s : State) (v : Word) : (s.withX v).sp = s.sp := rfl
@[simp] theorem State.withX_ip (s : State) (v : Word) : (s.withX v).ip = s.ip := rfl
@[simp] theorem State.withX_bankNum (s : State) (v : Word) : (s.withX v).bankNum = s.bankNum := rfl
@[simp] theorem State.withX_flags (s : State) (v : Word) : (s.withX v).flags = s.flags := rfl
@[simp] theorem State.withX_ram (s : State) (v : Word) : (s.withX v).ram = s.ram := rfl
@[simp] theorem State.withX_bankBuf (s : State) (v : Word) : (s.withX v).bankBuf = s.bankBuf := rfl
@[simp] theorem State.withX_curBank (s : State) (v : Word) : (s.withX v).curBank = s.curBank := rfl
@[simp] theorem State.withX_halted (s : State) (v : Word) : (s.withX v).halted = s.halted := rfl
@[simp] theorem State.withX_pending (s : State) (v : Word) : (s.withX v).pending = s.pending := rfl
@[simp] theorem State.withX_trace (s : State) (v : Word) : (s.withX v).trace = s.trace := rfl
@[simp] theorem State.withX_cfg (s : State) (v : Word) : (s.withX v).cfg = s.cfg := rfl
@[simp] theorem State.withX_inputs (s : State) (v : Word) : (s.withX v).inputs = s.inputs := rfl
@[simp] theorem State.withX_draws (s : State) (v : Word) : (s.withX v).draws = s.draws := rfl

@[simp] theorem State.withY_a (s : State) (v : Word) : (s.withY v).a = s.a := rfl
@[simp] theorem State.withY_b (s : State) (v : Word) : (s.withY v).b = s.b := rfl
@[simp] theorem State.withY_x (s : State) (v : Word) : (s.withY v).x = s.x := rfl
@[simp] theorem State.withY_y (s : State) (v : Word) : (s.withY v).y = v := rfl
@[simp] theorem State.withY_sp (s : State) (v : Word) : (s.withY v).sp = s.sp := rfl
@[simp] theorem State.withY_ip (s : State) (v : Word) : (s.withY v).ip = s.ip := rfl
@[simp] theorem State.withY_bankNum (s : State) (v : Word) : (s.withY v).bankNum = s.bankNum := rfl
@[simp] theorem State.withY_flags (s : State) (v : Word) : (s.withY v).flags = s.flags := rfl
@[simp] theorem State.withY_ram (s : State) (v : Word) : (s.withY v).ram = s.ram := rfl
@[simp] theorem State.withY_bankBuf (s : State) (v : Word) : (s.withY v).bankBuf = s.bankBuf := rfl
@[simp] theorem State.withY_curBank (s : State) (v : Word) : (s.withY v).curBank = s.curBank := rfl
@[simp] theorem State.withY_halted (s : State) (v : Word) : (s.withY v).halted = s.halted := rfl
@[simp] theorem State.withY_pending (s : State) (v : Word) : (s.withY v).pending = s.pending := rfl
@[simp] theorem State.withY_trace (s : State) (v : Word) : (s.withY v).trace = s.trace := rfl
@[simp] theorem State.withY_cfg (s : State) (v : Word) : (s.withY v).cfg = s.cfg := rfl
@[simp] theorem State.withY_inputs (s : State) (v : Word) : (s.withY v).inputs = s.inputs := rfl
@[simp] theorem State.withY_draws (s : State) (v : Word) : (s.withY v).draws = s.draws := rfl

@[simp] theorem State.withSp_a (s : State) (v : StackPtr) : (s.withSp v).a = s.a := rfl
@[simp] theorem State.withSp_b (s : State) (v : StackPtr) : (s.withSp v).b = s.b := rfl
@[simp] theorem State.withSp_x (s : State) (v : StackPtr) : (s.withSp v).x = s.x := rfl
@[simp] theorem State.withSp_y (s : State) (v : StackPtr) : (s.withSp v).y = s.y := rfl
@[simp] theorem State.withSp_sp (s : State) (v : StackPtr) : (s.withSp v).sp = v := rfl
@[simp] theorem State.withSp_ip (s : State) (v : StackPtr) : (s.withSp v).ip = s.ip := rfl
@[simp] theorem State.withSp_bankNum (s : State) (v : StackPtr) : (s.withSp v).bankNum = s.bankNum := rfl
@[simp] theorem State.withSp_flags (s : State) (v : StackPtr) : (s.withSp v).flags = s.flags := rfl
@[simp] theorem State.withSp_ram (s : State) (v : StackPtr) : (s.withSp v).ram = s.ram := rfl
@[simp] theorem State.withSp_bankBuf (s : State) (v : StackPtr) : (s.withSp v).bankBuf = s.bankBuf := rfl
@[simp] theorem State.withSp_curBank (s : State) (v : StackPtr) : (s.withSp v).curBank = s.curBank := rfl
@[simp] theorem State.withSp_halted (s : State) (v : StackPtr) : (s.withSp v).halted = s.halted := rfl
@[simp] theorem State.withSp_pending (s : State) (v : StackPtr) : (s.withSp v).pending = s.pending := rfl
@[simp] theorem State.withSp_trace (s : State) (v : StackPtr) : (s.withSp v).trace = s.trace := rfl
@[simp] theorem State.withSp_cfg (s : State) (v : StackPtr) : (s.withSp v).cfg = s.cfg := rfl
@[simp] theorem State.withSp_inputs (s : State) (v : StackPtr) : (s.withSp v).inputs = s.inputs := rfl
@[simp] theorem State.withSp_draws (s : State) (v : StackPtr) : (s.withSp v).draws = s.draws := rfl

@[simp] theorem State.withIp_a (s : State) (v : Word) : (s.withIp v).a = s.a := rfl
@[simp] theorem State.withIp_b (s : State) (v : Word) : (s.withIp v).b = s.b := rfl
@[simp] theorem State.withIp_x (s : State) (v : Word) : (s.withIp v).x = s.x := rfl
@[simp] theorem State.withIp_y (s : State) (v : Word) : (s.withIp v).y = s.y := rfl
@[simp] theorem State.withIp_sp (s : State) (v : Word) : (s.withIp v).sp = s.sp := rfl
@[simp] theorem State.withIp_ip (s : State) (v : Word) : (s.withIp v).ip = v := rfl
@[simp] theorem State.withIp_bankNum (s : State) (v : Word) : (s.withIp v).bankNum = s.bankNum := rfl
@[simp] theorem State.withIp_flags (s : State) (v : Word) : (s.withIp v).flags = s.flags := rfl
@[simp] theorem State.withIp_ram (s : State) (v : Word) : (s.withIp v).ram = s.ram := rfl
@[simp] theorem State.withIp_bankBuf (s : State) (v : Word) : (s.withIp v).bankBuf = s.bankBuf := rfl
@[simp] theorem State.withIp_curBank (s : State) (v : Word) : (s.withIp v).curBank = s.curBank := rfl
@[simp] theorem State.withIp_halted (s : State) (v : Word) : (s.withIp v).halted = s.halted := rfl
@[simp] theorem State.withIp_pending (s : State) (v : Word) : (s.withIp v).pending = s.pending := rfl
@[simp] theorem State.withIp_trace (s : State) (v : Word) : (s.withIp v).trace = s.trace := rfl
@[simp] theorem State.withIp_cfg (s : State) (v : Word) : (s.withIp v).cfg = s.cfg := rfl
@[simp] theorem State.withIp_inputs (s : State) (v : Word) : (s.withIp v).inputs = s.inputs := rfl
@[simp] theorem State.withIp_draws (s : State) (v : Word) : (s.withIp v).draws = s.draws := rfl

@[simp] theorem State.withBankNum_a (s : State) (v : Byte) : (s.withBankNum v).a = s.a := rfl
@[simp] theorem State.withBankNum_b (s : State) (v : Byte) : (s.withBankNum v).b = s.b := rfl
@[simp] theorem State.withBankNum_x (s : State) (v : Byte) : (s.withBankNum v).x = s.x := rfl
@[simp] theorem State.withBankNum_y (s : State) (v : Byte) : (s.withBankNum v).y = s.y := rfl
@[simp] theorem State.withBankNum_sp (s : State) (v : Byte) : (s.withBankNum v).sp = s.sp := rfl
@[simp] theorem State.withBankNum_ip (s : State) (v : Byte) : (s.withBankNum v).ip = s.ip := rfl
@[simp] theorem State.withBankNum_bankNum (s : State) (v : Byte) : (s.withBankNum v).bankNum = v := rfl
@[simp] theorem State.withBankNum_flags (s : State) (v : Byte) : (s.withBankNum v).flags = s.flags := rfl
@[simp] theorem State.withBankNum_ram (s : State) (v : Byte) : (s.withBankNum v).ram = s.ram := rfl
@[simp] theorem State.withBankNum_bankBuf (s : State) (v : Byte) : (s.withBankNum v).bankBuf = s.bankBuf := rfl
@[simp] theorem State.withBankNum_curBank (s : State) (v : Byte) : (s.withBankNum v).curBank = s.curBank := rfl
@[simp] theorem State.withBankNum_halted (s : State) (v : Byte) : (s.withBankNum v).halted = s.halted := rfl
@[simp] theorem State.withBankNum_pending (s : State) (v : Byte) : (s.withBankNum v).pending = s.pending := rfl
@[simp] theorem State.withBankNum_trace (s : State) (v : Byte) : (s.withBankNum v).trace = s.trace := rfl
@[simp] theorem State.withBankNum_cfg (s : State) (v : Byte) : (s.withBankNum v).cfg = s.cfg := rfl
@[simp] theorem State.withBankNum_inputs (s : State) (v : Byte) : (s.withBankNum v).inputs = s.inputs := rfl
@[simp] theorem State.withBankNum_draws (s : State) (v : Byte) : (s.withBankNum v).draws = s.draws := rfl

@[simp] theorem State.withFlags_a (s : State) (v : Byte) : (s.withFlags v).a = s.a := rfl
@[simp] theorem State.withFlags_b (s : State) (v : Byte) : (s.withFlags v).b = s.b := rfl
@[simp] theorem State.withFlags_x (s : State) (v : Byte) : (s.withFlags v).x = s.x := rfl
@[simp] theorem State.withFlags_y (s : State) (v : Byte) : (s.withFlags v).y = s.y := rfl
@[simp] theorem State.withFlags_sp (s : State) (v : Byte) : (s.withFlags v).sp = s.sp := rfl
@[simp] theorem State.withFlags_ip (s : State) (v : Byte) : (s.withFlags v).ip = s.ip := rfl
@[simp] theorem State.withFlags_bankNum (s : State) (v : Byte) : (s.withFlags v).bankNum = s.bankNum := rfl
@[simp] theorem State.withFlags_flags (s : State) (v : Byte) : (s.withFlags v).flags = v := rfl
@[simp] theorem State.withFlags_ram (s : State) (v : Byte) : (s.withFlags v).ram = s.ram := rfl
@[simp] theorem State.withFlags_bankBuf (s : State) (v : Byte) : (s.withFlags v).bankBuf = s.bankBuf := rfl
@[simp] theorem State.withFlags_curBank (s : State) (v : Byte) : (s.withFlags v).curBank = s.curBank := rfl
@[simp] theorem State.withFlags_halted (s : State) (v : Byte) : (s.withFlags v).halted = s.halted := rfl
@[simp] theorem State.withFlags_pending (s : State) (v : Byte) : (s.withFlags v).pending = s.pending := rfl
@[simp] theorem State.withFlags_trace (s : State) (v : Byte) : (s.withFlags v).trace = s.trace := rfl
@[simp] theorem State.withFlags_cfg (s : State) (v : Byte) : (s.withFlags v).cfg = s.cfg := rfl
@[simp] theorem State.withFlags_inputs (s : State) (v : Byte) : (s.withFlags v).inputs = s.inputs := rfl
@[simp] theorem State.withFlags_draws (s : State) (v : Byte) : (s.withFlags v).draws = s.draws := rfl

@[simp] theorem State.withRam_a (s : State) (v : Memory) : (s.withRam v).a = s.a := rfl
@[simp] theorem State.withRam_b (s : State) (v : Memory) : (s.withRam v).b = s.b := rfl
@[simp] theorem State.withRam_x (s : State) (v : Memory) : (s.withRam v).x = s.x := rfl
@[simp] theorem State.withRam_y (s : State) (v : Memory) : (s.withRam v).y = s.y := rfl
@[simp] theorem State.withRam_sp (s : State) (v : Memory) : (s.withRam v).sp = s.sp := rfl
@[simp] theorem State.withRam_ip (s : State) (v : Memory) : (s.withRam v).ip = s.ip := rfl
@[simp] theorem State.withRam_bankNum (s : State) (v : Memory) : (s.withRam v).bankNum = s.bankNum := rfl
@[simp] theorem State.withRam_flags (s : State) (v : Memory) : (s.withRam v).flags = s.flags := rfl
@[simp] theorem State.withRam_ram (s : State) (v : Memory) : (s.withRam v).ram = v := rfl
@[simp] theorem State.withRam_bankBuf (s : State) (v : Memory) : (s.withRam v).bankBuf = s.bankBuf := rfl
@[simp] theorem State.withRam_curBank (s : State) (v : Memory) : (s.withRam v).curBank = s.curBank := rfl
@[simp] theorem State.withRam_halted (s : State) (v : Memory) : (s.withRam v).halted = s.halted := rfl
@[simp] theorem State.withRam_pending (s : State) (v : Memory) : (s.withRam v).pending = s.pending := rfl
@[simp] theorem State.withRam_trace (s : State) (v : Memory) : (s.withRam v).trace = s.trace := rfl
@[simp] theorem State.withRam_cfg (s : State) (v : Memory) : (s.withRam v).cfg = s.cfg := rfl
@[simp] theorem State.withRam_inputs (s : State) (v : Memory) : (s.withRam v).inputs = s.inputs := rfl
@[simp] theorem State.withRam_draws (s : State) (v : Memory) : (s.withRam v).draws = s.draws := rfl

@[simp] theorem State.withPending_a (s : State) (v : Option PendingRead) : (s.withPending v).a = s.a := rfl
@[simp] theorem State.withPending_b (s : State) (v : Option PendingRead) : (s.withPending v).b = s.b := rfl
@[simp] theorem State.withPending_x (s : State) (v : Option PendingRead) : (s.withPending v).x = s.x := rfl
@[simp] theorem State.withPending_y (s : State) (v : Option PendingRead) : (s.withPending v).y = s.y := rfl
@[simp] theorem State.withPending_sp (s : State) (v : Option PendingRead) : (s.withPending v).sp = s.sp := rfl
@[simp] theorem State.withPending_ip (s : State) (v : Option PendingRead) : (s.withPending v).ip = s.ip := rfl
@[simp] theorem State.withPending_bankNum (s : State) (v : Option PendingRead) : (s.withPending v).bankNum = s.bankNum := rfl
@[simp] theorem State.withPending_flags (s : State) (v : Option PendingRead) : (s.withPending v).flags = s.flags := rfl
@[simp] theorem State.withPending_ram (s : State) (v : Option PendingRead) : (s.withPending v).ram = s.ram := rfl
@[simp] theorem State.withPending_bankBuf (s : State) (v : Option PendingRead) : (s.withPending v).bankBuf = s.bankBuf := rfl
@[simp] theorem State.withPending_curBank (s : State) (v : Option PendingRead) : (s.withPending v).curBank = s.curBank := rfl
@[simp] theorem State.withPending_halted (s : State) (v : Option PendingRead) : (s.withPending v).halted = s.halted := rfl
@[simp] theorem State.withPending_pending (s : State) (v : Option PendingRead) : (s.withPending v).pending = v := rfl
@[simp] theorem State.withPending_trace (s : State) (v : Option PendingRead) : (s.withPending v).trace = s.trace := rfl
@[simp] theorem State.withPending_cfg (s : State) (v : Option PendingRead) : (s.withPending v).cfg = s.cfg := rfl
@[simp] theorem State.withPending_inputs (s : State) (v : Option PendingRead) : (s.withPending v).inputs = s.inputs := rfl
@[simp] theorem State.withPending_draws (s : State) (v : Option PendingRead) : (s.withPending v).draws = s.draws := rfl

@[simp] theorem State.withHalted_a (s : State) (v : Bool) : (s.withHalted v).a = s.a := rfl
@[simp] theorem State.withHalted_b (s : State) (v : Bool) : (s.withHalted v).b = s.b := rfl
@[simp] theorem State.withHalted_x (s : State) (v : Bool) : (s.withHalted v).x = s.x := rfl
@[simp] theorem State.withHalted_y (s : State) (v : Bool) : (s.withHalted v).y = s.y := rfl
@[simp] theorem State.withHalted_sp (s : State) (v : Bool) : (s.withHalted v).sp = s.sp := rfl
@[simp] theorem State.withHalted_ip (s : State) (v : Bool) : (s.withHalted v).ip = s.ip := rfl
@[simp] theorem State.withHalted_bankNum (s : State) (v : Bool) : (s.withHalted v).bankNum = s.bankNum := rfl
@[simp] theorem State.withHalted_flags (s : State) (v : Bool) : (s.withHalted v).flags = s.flags := rfl
@[simp] theorem State.withHalted_ram (s : State) (v : Bool) : (s.withHalted v).ram = s.ram := rfl
@[simp] theorem State.withHalted_bankBuf (s : State) (v : Bool) : (s.withHalted v).bankBuf = s.bankBuf := rfl
@[simp] theorem State.withHalted_curBank (s : State) (v : Bool) : (s.withHalted v).curBank = s.curBank := rfl
@[simp] theorem State.withHalted_halted (s : State) (v : Bool) : (s.withHalted v).halted = v := rfl
@[simp] theorem State.withHalted_pending (s : State) (v : Bool) : (s.withHalted v).pending = s.pending := rfl
@[simp] theorem State.withHalted_trace (s : State) (v : Bool) : (s.withHalted v).trace = s.trace := rfl
@[simp] theorem State.withHalted_cfg (s : State) (v : Bool) : (s.withHalted v).cfg = s.cfg := rfl
@[simp] theorem State.withHalted_inputs (s : State) (v : Bool) : (s.withHalted v).inputs = s.inputs := rfl
@[simp] theorem State.withHalted_draws (s : State) (v : Bool) : (s.withHalted v).draws = s.draws := rfl

@[simp] theorem State.emit_a (s : State) (e : Event) : (s.emit e).a = s.a := rfl
@[simp] theorem State.emit_b (s : State) (e : Event) : (s.emit e).b = s.b := rfl
@[simp] theorem State.emit_x (s : State) (e : Event) : (s.emit e).x = s.x := rfl
@[simp] theorem State.emit_y (s : State) (e : Event) : (s.emit e).y = s.y := rfl
@[simp] theorem State.emit_sp (s : State) (e : Event) : (s.emit e).sp = s.sp := rfl
@[simp] theorem State.emit_ip (s : State) (e : Event) : (s.emit e).ip = s.ip := rfl
@[simp] theorem State.emit_bankNum (s : State) (e : Event) : (s.emit e).bankNum = s.bankNum := rfl
@[simp] theorem State.emit_flags (s : State) (e : Event) : (s.emit e).flags = s.flags := rfl
@[simp] theorem State.emit_ram (s : State) (e : Event) : (s.emit e).ram = s.ram := rfl
@[simp] theorem State.emit_bankBuf (s : State) (e : Event) : (s.emit e).bankBuf = s.bankBuf := rfl
@[simp] theorem State.emit_curBank (s : State) (e : Event) : (s.emit e).curBank = s.curBank := rfl
@[simp] theorem State.emit_halted (s : State) (e : Event) : (s.emit e).halted = s.halted := rfl
@[simp] theorem State.emit_pending (s : State) (e : Event) : (s.emit e).pending = s.pending := rfl
@[simp] theorem State.emit_trace (s : State) (e : Event) : (s.emit e).trace = s.trace ++ [e] := rfl
@[simp] theorem State.emit_cfg (s : State) (e : Event) : (s.emit e).cfg = s.cfg := rfl
@[simp] theorem State.emit_inputs (s : State) (e : Event) : (s.emit e).inputs = s.inputs := rfl
@[simp] theorem State.emit_draws (s : State) (e : Event) : (s.emit e).draws = s.draws := rfl

@[simp] theorem State.mapBank_a (s : State) (n : Nat) : (s.mapBank n).a = s.a := rfl
@[simp] theorem State.mapBank_b (s : State) (n : Nat) : (s.mapBank n).b = s.b := rfl
@[simp] theorem State.mapBank_x (s : State) (n : Nat) : (s.mapBank n).x = s.x := rfl
@[simp] theorem State.mapBank_y (s : State) (n : Nat) : (s.mapBank n).y = s.y := rfl
@[simp] theorem State.mapBank_sp (s : State) (n : Nat) : (s.mapBank n).sp = s.sp := rfl
@[simp] theorem State.mapBank_ip (s : State) (n : Nat) : (s.mapBank n).ip = s.ip := rfl
@[simp] theorem State.mapBank_bankNum (s : State) (n : Nat) : (s.mapBank n).bankNum = s.bankNum := rfl
@[simp] theorem State.mapBank_flags (s : State) (n : Nat) : (s.mapBank n).flags = s.flags := rfl
@[simp] theorem State.mapBank_ram (s : State) (n : Nat) : (s.mapBank n).ram = s.ram := rfl
@[simp] theorem State.mapBank_bankBuf (s : State) (n : Nat) : (s.mapBank n).bankBuf = loadBank s.cfg n s.draws := rfl
@[simp] theorem State.mapBank_curBank (s : State) (n : Nat) : (s.mapBank n).curBank = n := rfl
@[simp] theorem State.mapBank_halted (s : State) (n : Nat) : (s.mapBank n).halted = s.halted := rfl
@[simp] theorem State.mapBank_pending (s : State) (n : Nat) : (s.mapBank n).pending = s.pending := rfl
@[simp] theorem State.mapBank_trace (s : State) (n : Nat) : (s.mapBank n).trace = s.trace := rfl
@[simp] theorem State.mapBank_cfg (s : State) (n : Nat) : (s.mapBank n).cfg = s.cfg := rfl
@[simp] theorem State.mapBank_inputs (s : State) (n : Nat) : (s.mapBank n).inputs = s.inputs := rfl
@[simp] theorem State.mapBank_draws (s : State) (n : Nat) : (s.mapBank n).draws = s.draws + 1 := rfl

end Sys2Proof.Machine
end

