-- ==== Sys2Proof/Laws/Ops.lean ====
section
/-! SUPPORT. What each shared operation can do, said once. -/

namespace Sys2Proof.Machine

/-! ## Results -/

@[simp] theorem andThen_next (s : State) (k : State → Result) : andThen (.next s) k = k s := rfl
@[simp] theorem andThen_fault (f : Fault) (k : State → Result) : andThen (.fault f) k = .fault f := rfl
@[simp] theorem andThen_refused (e : Refusal) (k : State → Result) : andThen (.refused e) k = .refused e := rfl
@[simp] theorem completed_next (n : Nat) (s : State) : completed n (.next s) = .next (advanceIP n s) := rfl
@[simp] theorem completed_fault (n : Nat) (f : Fault) : completed n (.fault f) = .fault f := rfl
@[simp] theorem completed_refused (n : Nat) (e : Refusal) : completed n (.refused e) = .refused e := rfl

/-- A completed body: it answered a next state, and IP was advanced from there. -/
theorem completed_eq_next {n : Nat} {r : Result} {s' : State} (h : completed n r = .next s') :
    ∃ t, r = .next t ∧ s' = advanceIP n t := by
  cases r with
  | next t => exact ⟨t, rfl, by simpa using h.symm⟩
  | fault f => cases h
  | refused e => cases h

theorem completed_eq_fault {n : Nat} {r : Result} {f : Fault} (h : completed n r = .fault f) : r = .fault f := by
  cases r with
  | next t => cases h
  | fault g => simpa using h
  | refused e => cases h

theorem completed_eq_refused {n : Nat} {r : Result} {e : Refusal} (h : completed n r = .refused e) :
    r = .refused e := by
  cases r with
  | next t => cases h
  | fault g => cases h
  | refused e' => simpa using h

/-! ## Register operands -/

@[simp] theorem withRegister_legal {r : Byte} {reg : Reg} (h : Reg.ofByte? r = some reg) (s : State)
    (body : Reg → Result) : withRegister r s body = body reg := by simp [withRegister, h]

@[simp] theorem withRegister_illegal {r : Byte} (h : Reg.ofByte? r = none) (s : State) (body : Reg → Result) :
    withRegister r s body = .fault (.invalidRegister r (s.withHalted true)) := by
  simp [withRegister, h, raiseInvalidRegister, haltedBy]

@[simp] theorem withRegisterValue_legal {r : Byte} {reg : Reg} (h : Reg.ofByte? r = some reg) (s : State)
    (body : Word → Result) : withRegisterValue r s body = body (getReg s reg) := by simp [withRegisterValue, h]

@[simp] theorem withRegisterValue_illegal {r : Byte} (h : Reg.ofByte? r = none) (s : State) (body : Word → Result) :
    withRegisterValue r s body = .fault (.invalidRegister r (s.withHalted true)) := by simp [withRegisterValue, h]

/-- A Register operand is legal exactly below 8 (30_encoding.md R102). -/
theorem Reg.ofByte?_eq_none {r : Byte} : Reg.ofByte? r = none ↔ 8 ≤ r.toNat := by
  revert r
  decide

/-- A use of a Register operand: either its register was used, or its index was illegal and faulted. -/
theorem withRegister_cases (r : Byte) (s : State) (body : Reg → Result) :
    (∃ reg, Reg.ofByte? r = some reg ∧ withRegister r s body = body reg) ∨
      (Reg.ofByte? r = none ∧ withRegister r s body = .fault (.invalidRegister r (s.withHalted true))) := by
  cases h : Reg.ofByte? r with
  | none => exact .inr ⟨rfl, withRegister_illegal h s body⟩
  | some reg => exact .inl ⟨reg, rfl, withRegister_legal h s body⟩

/-! ## Words and bytes -/

@[simp] theorem loByte_wordOf (lo hi : Byte) : loByte (wordOf lo hi) = lo := by
  apply BitVec.eq_of_toNat_eq
  have hl := lo.isLt
  have hh := hi.isLt
  simp only [loByte, wordOf, BitVec.toNat_setWidth, BitVec.toNat_append, Nat.shiftLeft_eq]
  rw [Nat.mul_comm, ← Nat.two_pow_add_eq_or_of_lt hl]
  omega

@[simp] theorem hiByte_wordOf (lo hi : Byte) : hiByte (wordOf lo hi) = hi := by
  apply BitVec.eq_of_toNat_eq
  have hl := lo.isLt
  have hh := hi.isLt
  simp only [hiByte, wordOf, BitVec.toNat_setWidth, BitVec.toNat_ushiftRight, BitVec.toNat_append,
    Nat.shiftLeft_eq, Nat.shiftRight_eq_div_pow]
  rw [Nat.mul_comm, ← Nat.two_pow_add_eq_or_of_lt hl]
  omega

@[simp] theorem wordOf_loByte_hiByte (v : Word) : wordOf (loByte v) (hiByte v) = v := by
  apply BitVec.eq_of_toNat_eq
  have hl := (loByte v).isLt
  have hv := v.isLt
  have : (wordOf (loByte v) (hiByte v)).toNat = (hiByte v).toNat <<< 8 ||| (loByte v).toNat :=
    BitVec.toNat_append _ _
  rw [this, Nat.shiftLeft_eq, Nat.mul_comm, ← Nat.two_pow_add_eq_or_of_lt hl]
  simp only [loByte, hiByte, BitVec.toNat_setWidth, BitVec.toNat_ushiftRight, Nat.shiftRight_eq_div_pow]
  omega

theorem loByte_eq_ofNat (v : Word) : loByte v = BitVec.ofNat 8 (v.toNat % 256) := by
  apply BitVec.eq_of_toNat_eq
  simp [loByte]

theorem hiByte_eq_ofNat (v : Word) : hiByte v = BitVec.ofNat 8 (v.toNat / 256) := by
  apply BitVec.eq_of_toNat_eq
  simp [hiByte, Nat.shiftRight_eq_div_pow]

/-! ## Flags -/

/-- A jump's condition is one value of Flags modulo 8 (43_control_transfer.md R180). -/
theorem condition_eq (k : JumpKind) (f : Byte) : condition k f = decide (f.toNat % 8 = k.pattern.toNat) := by
  revert f
  cases k <;> decide

/-- CMP's Flags in arithmetic (42_alu.md R169). -/
theorem compareFlags_eq (f : Byte) (a b : Word) : compareFlags f a b =
    BitVec.ofNat 8 (f.toNat / 8 * 8 + (if a.toNat = b.toNat then 1 else if b.toNat < a.toNat then 2 else 4)) := by
  have h1 : ∀ f : Byte, (f &&& 0xF8#8) ||| 1#8 = BitVec.ofNat 8 (f.toNat / 8 * 8 + 1) := by decide
  have h2 : ∀ f : Byte, (f &&& 0xF8#8) ||| 2#8 = BitVec.ofNat 8 (f.toNat / 8 * 8 + 2) := by decide
  have h4 : ∀ f : Byte, (f &&& 0xF8#8) ||| 4#8 = BitVec.ofNat 8 (f.toNat / 8 * 8 + 4) := by decide
  simp only [compareFlags, compareBits, ← BitVec.toNat_inj]
  split
  · rw [← h1]
  · split
    · rw [← h2]
    · rw [← h4]

/-! ## Memory -/

theorem readByte_ram {s : State} {a : Word} (h : a.toNat < ramSize) : readByte s a = Memory.read s.ram a.toNat :=
  if_pos h

theorem readByte_window {s : State} {a : Word} (h : ¬a.toNat < ramSize) :
    readByte s a = BankBuf.read s.bankBuf (a.toNat - ramSize) :=
  if_neg h

/-- Reading depends on RAM and the bank buffer alone. -/
theorem readByte_congr {s t : State} (hr : t.ram = s.ram) (hb : t.bankBuf = s.bankBuf) (a : Word) :
    readByte t a = readByte s a := by simp only [readByte, hr, hb]

/-- A byte write changes RAM alone (20_memory.md R62). -/
theorem writeByte_eq (s : State) (a : Word) (v : Byte) : ∃ m, writeByte s a v = s.withRam m := by
  unfold writeByte
  split
  · exact ⟨_, rfl⟩
  · exact ⟨s.ram, rfl⟩

/-- A byte write leaves every other address alone. -/
theorem readByte_writeByte_other {s : State} {a b : Word} {v : Byte} (h : b ≠ a) :
    readByte (writeByte s a v) b = readByte s b := by
  unfold writeByte
  split
  · by_cases hb : b.toNat < ramSize
    · rw [readByte_ram hb, readByte_ram hb]
      exact Memory.read_write_other fun he => h (BitVec.eq_of_toNat_eq he)
    · rw [readByte_window hb, readByte_window hb]
      rfl
  · rfl

/-- A byte write to RAM is read back (R61, R62). -/
theorem readByte_writeByte_same {s : State} {a : Word} {v : Byte} (hm : s.ram.wf = true) (ha : a.toNat < ramSize) :
    readByte (writeByte s a v) a = v := by
  rw [readByte_ram ha, writeByte, if_pos ha]
  exact Memory.read_write_same hm

/-- A byte write to the ROM window is discarded (R62). -/
theorem writeByte_window {s : State} {a : Word} {v : Byte} (ha : ¬a.toNat < ramSize) : writeByte s a v = s :=
  if_neg ha

/-- A byte write keeps RAM's canonical form. -/
theorem writeByte_ram_wf {s : State} (a : Word) (v : Byte) (hm : s.ram.wf = true) :
    (writeByte s a v).ram.wf = true := by
  unfold writeByte
  split
  · exact Memory.write_wf hm ‹_›
  · exact hm

/-- A word write is two byte writes, so it changes RAM alone. -/
theorem writeWord_eq (s : State) (a : Word) (v : Word) : ∃ m, writeWord s a v = s.withRam m := by
  obtain ⟨m, hm⟩ := writeByte_eq s a (loByte v)
  obtain ⟨m', hm'⟩ := writeByte_eq (s.withRam m) (a + 1#16) (hiByte v)
  exact ⟨m', by rw [writeWord, hm, hm']; rfl⟩

theorem writeWord_ram_wf {s : State} (a v : Word) (hm : s.ram.wf = true) : (writeWord s a v).ram.wf = true :=
  writeByte_ram_wf _ _ (writeByte_ram_wf _ _ hm)

/-- A stack word write changes RAM alone (R75). -/
theorem writeStack_eq (s : State) (p : StackPtr) (v : Word) : ∃ m, writeStack s p v = s.withRam m := by
  obtain ⟨m, hm⟩ := writeByte_eq s (stackAddr p) (loByte v)
  obtain ⟨m', hm'⟩ := writeByte_eq (s.withRam m) (stackAddr (nextSP p)) (hiByte v)
  exact ⟨m', by rw [writeStack, hm, hm']; rfl⟩

theorem writeStack_ram_wf {s : State} (p : StackPtr) (v : Word) (hm : s.ram.wf = true) :
    (writeStack s p v).ram.wf = true :=
  writeByte_ram_wf _ _ (writeByte_ram_wf _ _ hm)

/-- Every stack address lies in RAM (10_state.md R31). -/
theorem stackAddr_lt (p : StackPtr) : (stackAddr p).toNat < ramSize := by
  have := p.isLt
  simp only [stackAddr, BitVec.toNat_setWidth, ramSize]
  omega

theorem stackAddr_injective {p q : StackPtr} (h : stackAddr p = stackAddr q) : p = q := by
  have hp := p.isLt
  have hq := q.isLt
  have := congrArg BitVec.toNat h
  simp only [stackAddr, BitVec.toNat_setWidth] at this
  exact BitVec.eq_of_toNat_eq (by omega)

theorem nextSP_ne (p : StackPtr) : nextSP p ≠ p := by
  intro h
  have := congrArg BitVec.toNat h
  have := p.isLt
  simp only [nextSP, BitVec.toNat_add, BitVec.toNat_ofNat] at *
  omega

theorem succ_ne (a : Word) : a + 1#16 ≠ a := by
  intro h
  have := congrArg BitVec.toNat h
  have := a.isLt
  simp only [BitVec.toNat_add, BitVec.toNat_ofNat] at *
  omega

/-- The storing of a text changes RAM alone (44_io.md R203). -/
theorem storeText_eq (s : State) (t : Word) (text : List Byte) : ∃ m, storeText s t text = s.withRam m := by
  induction text generalizing s t with
  | nil => exact writeByte_eq s t _
  | cons c text ih =>
    obtain ⟨m, hm⟩ := writeByte_eq s t c
    obtain ⟨m', hm'⟩ := ih (writeByte s t c) (t + 1#16)
    exact ⟨m', by rw [storeText, hm', hm]; rfl⟩

theorem storeText_ram_wf {s : State} (t : Word) (text : List Byte) (hm : s.ram.wf = true) :
    (storeText s t text).ram.wf = true := by
  induction text generalizing s t with
  | nil => exact writeByte_ram_wf _ _ hm
  | cons c text ih => exact ih _ (writeByte_ram_wf _ _ hm)

/-! ## Banks -/

@[simp] theorem switchBank_ram (s : State) (n : Nat) : (switchBank s n).ram = s.ram := rfl
@[simp] theorem switchBank_cfg (s : State) (n : Nat) : (switchBank s n).cfg = s.cfg := rfl
@[simp] theorem switchBank_ip (s : State) (n : Nat) : (switchBank s n).ip = s.ip := rfl
@[simp] theorem switchBank_curBank (s : State) (n : Nat) : (switchBank s n).curBank = n := rfl
@[simp] theorem switchBank_bankBuf (s : State) (n : Nat) :
    (switchBank s n).bankBuf = loadBank s.cfg n s.draws := rfl
@[simp] theorem switchBank_trace (s : State) (n : Nat) :
    (switchBank s n).trace = s.trace ++ [.bankSwitched n] := rfl
@[simp] theorem switchBank_bankNum (s : State) (n : Nat) : (switchBank s n).bankNum = s.bankNum := rfl

/-! ## The instruction pointer -/

/-- `nextIP()` either sets IP alone, or, at 0xFFFF of a Streaming machine, maps the next bank (10_state.md R33). -/
theorem nextIP_cases (s : State) :
    (∃ v, nextIP s = s.withIp v) ∨
      (s.ip = 0xFFFF#16 ∧ s.cfg.variant = .streaming ∧ nextIP s = (switchBank s (s.curBank + 1)).withIp 0x8000#16) := by
  by_cases h7 : s.ip = 0x7FFF#16
  · exact .inl ⟨_, if_pos h7⟩
  · by_cases hF : s.ip = 0xFFFF#16
    · cases hv : s.cfg.variant with
      | preloaded => exact .inl ⟨0x0000#16, by simp [nextIP, hF, hv]⟩
      | streaming => exact .inr ⟨hF, rfl, by simp [nextIP, hF, hv, nextBank]⟩
    · exact .inl ⟨s.ip + 1#16, by simp [nextIP, h7, hF]⟩

/-- What is kept by the two things `nextIP` does is kept by `advanceIP` (R34). -/
theorem advanceIP_keeps {P : State → Prop} (hip : ∀ s v, P s → P (s.withIp v))
    (hbank : ∀ s, s.cfg.variant = .streaming → P s → P (switchBank s (s.curBank + 1))) (n : Nat) (s : State)
    (h : P s) : P (advanceIP n s) := by
  induction n generalizing s with
  | zero => exact h
  | succ n ih =>
    refine ih _ ?_
    obtain ⟨v, hv⟩ | ⟨-, hs, hv⟩ := nextIP_cases s
    · rw [hv]
      exact hip s v h
    · rw [hv]
      exact hip _ _ (hbank s hs h)

/-- Away from 0x7FFF and 0xFFFF, IP advances by `n` and nothing else happens (R33, R34). -/
theorem advanceIP_straight (n : Nat) (s : State)
    (h : s.ip.toNat + n ≤ 0x7FFF ∨ 0x8000 ≤ s.ip.toNat ∧ s.ip.toNat + n ≤ 0xFFFF) :
    advanceIP n s = s.withIp (s.ip + BitVec.ofNat 16 n) := by
  induction n generalizing s with
  | zero => simp [advanceIP, State.withIp]
  | succ n ih =>
    have hlt := s.ip.isLt
    have h7 : s.ip ≠ 0x7FFF#16 := by
      intro he
      rw [he] at h
      simp only [BitVec.toNat_ofNat] at h
      omega
    have hF : s.ip ≠ 0xFFFF#16 := by
      intro he
      rw [he] at h
      simp only [BitVec.toNat_ofNat] at h
      omega
    have hn : nextIP s = s.withIp (s.ip + 1#16) := by simp [nextIP, h7, hF]
    have hadd : (s.ip + 1#16).toNat = s.ip.toNat + 1 := by
      simp only [BitVec.toNat_add, BitVec.toNat_ofNat]
      omega
    rw [advanceIP, hn, ih]
    · simp only [State.withIp_ip]
      have : s.ip + 1#16 + BitVec.ofNat 16 n = s.ip + BitVec.ofNat 16 (n + 1) := by
        apply BitVec.eq_of_toNat_eq
        simp only [BitVec.toNat_add, BitVec.toNat_ofNat]
        omega
      rw [this]
      rfl
    · simp only [State.withIp_ip, hadd]
      omega

/-! ## Register writes -/

/-- What a register write can do: a plain write of one register, a write of BankNum with its reload, or the fault of
a Preloaded bank number out of range (R25 to R28). -/
theorem setReg_cases (s : State) (d : Reg) (v : Word) :
    (d ≠ .BankNum ∧ ∃ t, setReg s d v = .next t ∧ t.ram = s.ram ∧ t.bankBuf = s.bankBuf ∧ t.cfg = s.cfg) ∨
      (d = .BankNum ∧ (s.cfg.variant = .preloaded → (loByte v).toNat < s.cfg.nbanks) ∧
        setReg s d v = .next (switchBank (s.withBankNum (loByte v)) (loByte v).toNat)) ∨
      (d = .BankNum ∧ s.cfg.variant = .preloaded ∧ s.cfg.nbanks ≤ (loByte v).toNat ∧
        setReg s d v = .fault (.outOfRangeBank (loByte v).toNat (s.withHalted true))) := by
  cases d with
  | BankNum =>
    right
    simp only [setReg, setBankNum]
    cases hv : s.cfg.variant with
    | streaming => exact .inl ⟨trivial, nofun, rfl⟩
    | preloaded =>
      by_cases hb : (loByte v).toNat < s.cfg.nbanks
      · exact .inl ⟨trivial, fun _ => hb, by simp [hb]⟩
      · exact .inr ⟨trivial, rfl, by omega, by simp [hb, raiseOutOfRangeBank, haltedBy]⟩
  | _ => exact .inl ⟨by decide, _, rfl, rfl, rfl, rfl⟩

/-! ## Text -/

/-- A scan that ends has read the text and the zero byte after it (44_io.md R201). -/
theorem scanText_some {s : State} {t : Word} {n : Nat} {text : List Byte} (h : scanText s t n = some text) :
    text.length < n ∧ readByte s (t + BitVec.ofNat 16 text.length) = 0x00 ∧
      ∀ k (hk : k < text.length), readByte s (t + BitVec.ofNat 16 k) = text[k] ∧ text[k] ≠ 0x00 := by
  induction n generalizing t text with
  | zero => cases h
  | succ n ih =>
    simp only [scanText] at h
    split at h
    · cases h
      exact ⟨Nat.succ_pos n, by simpa using ‹_›, by simp⟩
    · obtain ⟨rest, hr, rfl⟩ := Option.map_eq_some_iff.mp h
      obtain ⟨hl, hz, hb⟩ := ih hr
      have hs : ∀ k : Nat, t + BitVec.ofNat 16 (k + 1) = t + 1#16 + BitVec.ofNat 16 k := by
        intro k
        apply BitVec.eq_of_toNat_eq
        simp only [BitVec.toNat_add, BitVec.toNat_ofNat]
        omega
      refine ⟨by simpa using hl, by rw [List.length_cons, hs]; exact hz, ?_⟩
      intro k hk
      cases k with
      | zero => exact ⟨by simp, by simpa using ‹¬_›⟩
      | succ k =>
        rw [hs, List.getElem_cons_succ]
        exact hb k (by simpa using hk)

/-- A scan that does not end has met no zero byte (R201). -/
theorem scanText_none {s : State} {t : Word} {n : Nat} (h : scanText s t n = none) (k : Nat) (hk : k < n) :
    readByte s (t + BitVec.ofNat 16 k) ≠ 0x00 := by
  induction n generalizing t k with
  | zero => omega
  | succ n ih =>
    simp only [scanText] at h
    split at h
    · cases h
    · have hr : scanText s (t + 1#16) n = none := by simpa using h
      cases k with
      | zero => simpa using ‹¬_›
      | succ k =>
        have := ih hr k (by omega)
        have hs : t + BitVec.ofNat 16 (k + 1) = t + 1#16 + BitVec.ofNat 16 k := by
          apply BitVec.eq_of_toNat_eq
          simp only [BitVec.toNat_add, BitVec.toNat_ofNat]
          omega
        rwa [hs]

end Sys2Proof.Machine
end

