-- ==== Sys2Proof/Laws/Decode.lean ====
section
/-! SUPPORT. Laws of the decoder's and the encoder's parts. -/

namespace Sys2Proof

open Sys2Proof.Machine

@[simp] theorem Reg.ofIndex?_index (r : Reg) : Reg.ofIndex? r.index = some r := by cases r <;> rfl

theorem Reg.ofByte?_ofNat_index (r : Reg) : Reg.ofByte? (BitVec.ofNat 8 r.index) = some r := by cases r <;> rfl

theorem pairDst_pairByte (dst src : Reg) : pairDst (pairByte dst src) = dst := by
  cases dst <;> cases src <;> rfl

theorem pairSrc_pairByte (dst src : Reg) : pairSrc (pairByte dst src) = src := by
  cases dst <;> cases src <;> rfl

/-- Each operation's operand bytes are read back, whatever follows them. -/
theorem decodeOperands_operandBytes (i : Instr) (rest : List Byte) :
    decodeOperands i.operation (operandBytes i ++ rest) = .ok (i, rest) := by
  cases i <;>
    simp [Instr.operation, operandBytes, decodeOperands, formatF0, formatFR, formatFP, formatFI, formatFRI,
      pairDst_pairByte, pairSrc_pairByte]

/-- The canonical byte of an operation selects it. -/
theorem lookup_opcodeByte {t : DecodeTable} {op : Operation} {b0 : Byte} (h : t.opcodeByte op = some b0) :
    t.lookup b0 = some op := by
  unfold DecodeTable.opcodeByte at h
  obtain ⟨k, hk, rfl⟩ := Option.map_eq_some_iff.mp h
  obtain ⟨hl, hk', -⟩ := List.idxOf?_eq_some_iff.mp hk
  simp only [DecodeTable.reachable, List.length_take] at hl
  have hlt : k < t.opmod ∧ k < 256 ∧ k < t.ops.length := by omega
  have hb : (BitVec.ofNat 8 k).toNat = k := by
    rw [BitVec.toNat_ofNat]
    omega
  have hget : t.ops[k] = op := by
    simpa [DecodeTable.reachable] using hk'
  rw [DecodeTable.lookup, hb, Nat.mod_eq_of_lt hlt.1, List.getElem?_eq_getElem hlt.2.2, hget]

/-- A decoding splits the bytes after the opcode byte into the operand's and the rest. -/
theorem decodeOperands_length {op : Operation} {bs rest : List Byte} {i : Instr}
    (h : decodeOperands op bs = .ok (i, rest)) :
    i.operation = op ∧ bs.length + 1 = op.length + rest.length ∧ rest = bs.drop (op.length - 1) := by
  have f0 : ∀ {j : Instr}, formatF0 j bs = .ok (i, rest) → i = j ∧ rest = bs := by
    intro j hj
    cases hj
    exact ⟨rfl, rfl⟩
  have fr : ∀ {mk : Byte → Instr}, formatFR mk bs = .ok (i, rest) → ∃ b1, i = mk b1 ∧ bs = b1 :: rest := by
    intro mk hj
    unfold formatFR at hj
    split at hj <;> cases hj
    exact ⟨_, rfl, rfl⟩
  have fp : ∀ {mk : Reg → Reg → Instr}, formatFP mk bs = .ok (i, rest) →
      ∃ d s b1, i = mk d s ∧ bs = b1 :: rest := by
    intro mk hj
    unfold formatFP at hj
    split at hj <;> cases hj
    exact ⟨_, _, _, rfl, rfl⟩
  have fi : ∀ {mk : Word → Instr}, formatFI mk bs = .ok (i, rest) →
      ∃ w b1 b2, i = mk w ∧ bs = b1 :: b2 :: rest := by
    intro mk hj
    unfold formatFI at hj
    split at hj <;> cases hj
    exact ⟨_, _, _, rfl, rfl⟩
  have fri : ∀ {mk : Byte → Word → Instr}, formatFRI mk bs = .ok (i, rest) →
      ∃ r w b1 b2 b3, i = mk r w ∧ bs = b1 :: b2 :: b3 :: rest := by
    intro mk hj
    unfold formatFRI at hj
    split at hj <;> cases hj
    exact ⟨_, _, _, _, _, rfl, rfl⟩
  cases op <;>
    first
    | obtain ⟨rfl, rfl⟩ := f0 h
    | obtain ⟨_, rfl, rfl⟩ := fr h
    | obtain ⟨_, _, _, rfl, rfl⟩ := fp h
    | obtain ⟨_, _, _, rfl, rfl⟩ := fi h
    | obtain ⟨_, _, _, _, _, rfl, rfl⟩ := fri h
  all_goals
    simp only [Instr.operation, Operation.length, Operation.kinds, OperandKind.bytes, List.length_cons]
    exact ⟨trivial, by omega, rfl⟩

end Sys2Proof
end

