-- ==== Sys2Proof/Laws/Exec.lean ====
section
/-! SUPPORT. What an instruction and a step can do, said once: a property that each elementary change of the state
keeps is kept by every instruction and by every step. -/

namespace Sys2Proof.Machine

/-- A property of states that each elementary change keeps. -/
structure Closed (P : State → Prop) : Prop where
  withA : ∀ s v, P s → P (s.withA v)
  withB : ∀ s v, P s → P (s.withB v)
  withX : ∀ s v, P s → P (s.withX v)
  withY : ∀ s v, P s → P (s.withY v)
  withSp : ∀ s v, P s → P (s.withSp v)
  withIp : ∀ s v, P s → P (s.withIp v)
  withFlags : ∀ s v, P s → P (s.withFlags v)
  writeByte : ∀ s a v, P s → P (writeByte s a v)
  setBank : ∀ s (v : Byte), (s.cfg.variant = .preloaded → v.toNat < s.cfg.nbanks) → P s →
    P (switchBank (s.withBankNum v) v.toNat)
  nextBank : ∀ s, s.cfg.variant = .streaming → P s → P (switchBank s (s.curBank + 1))
  output : ∀ s text, P s → P (s.emit (.output text))
  takeInput : ∀ s text later, s.inputs = text :: later → P s → P { s with inputs := later }
  drawInput : ∀ s, P s → P { s with draws := s.draws + 1 }
  wait : ∀ s t len, len = 2 ∨ len = 3 → P s → P (s.withPending (some { target := t, len := len }))
  resume : ∀ s, P s → P (s.withPending none)

namespace Closed

variable {P : State → Prop}

theorem advanceIP (h : Closed P) (n : Nat) (s : State) (hs : P s) : P (Machine.advanceIP n s) :=
  advanceIP_keeps h.withIp h.nextBank n s hs

theorem completed (h : Closed P) {n : Nat} {r : Result} (hr : ∀ t, r = .next t → P t) {s' : State}
    (hs : Machine.completed n r = .next s') : P s' := by
  obtain ⟨t, ht, rfl⟩ := completed_eq_next hs
  exact h.advanceIP n t (hr t ht)

theorem setReg (h : Closed P) {s : State} (hs : P s) (d : Reg) (v : Word) {t : State}
    (ht : Machine.setReg s d v = .next t) : P t := by
  obtain ⟨hd, -⟩ | ⟨-, hb, he⟩ | ⟨-, -, -, he⟩ := setReg_cases s d v
  · cases d with
    | A => cases ht; exact h.withA s v hs
    | B => cases ht; exact h.withB s v hs
    | X => cases ht; exact h.withX s v hs
    | Y => cases ht; exact h.withY s v hs
    | SP => cases ht; exact h.withSp s _ hs
    | IP => cases ht; exact h.withIp s v hs
    | Flags => cases ht; exact h.withFlags s _ hs
    | BankNum => exact absurd rfl hd
  · rw [he] at ht
    cases ht
    exact h.setBank s _ hb hs
  · rw [he] at ht
    cases ht

theorem withRegister (r : Byte) {s : State} {body : Reg → Result}
    (hb : ∀ reg t, body reg = .next t → P t) {t : State} (ht : Machine.withRegister r s body = .next t) : P t := by
  obtain ⟨reg, -, he⟩ | ⟨-, he⟩ := withRegister_cases r s body
  · exact hb reg t (he ▸ ht)
  · rw [he] at ht
    cases ht

theorem writeWord (h : Closed P) {s : State} (hs : P s) (a v : Word) : P (Machine.writeWord s a v) :=
  h.writeByte _ _ _ (h.writeByte _ _ _ hs)

theorem writeStack (h : Closed P) {s : State} (hs : P s) (p : StackPtr) (v : Word) : P (Machine.writeStack s p v) :=
  h.writeByte _ _ _ (h.writeByte _ _ _ hs)

theorem storeText (h : Closed P) {s : State} (hs : P s) (t : Word) (text : List Byte) :
    P (Machine.storeText s t text) := by
  induction text generalizing s t with
  | nil => exact h.writeByte _ _ _ hs
  | cons c text ih => exact ih (h.writeByte _ _ _ hs) _

theorem jumpTo (h : Closed P) {s : State} (hs : P s) {kind : JumpKind} {len : Nat} {t : Word} {s' : State}
    (he : Machine.jumpTo kind len t s = .next s') : P s' := by
  unfold Machine.jumpTo at he
  split at he
  · cases he
    exact h.withIp s t hs
  · exact h.completed (fun u hu => by cases hu; exact hs) he

theorem writeText (h : Closed P) {s : State} (hs : P s) {t : Word} {s' : State}
    (he : Machine.writeText t s = .next s') : P s' := by
  unfold Machine.writeText at he
  split at he
  · cases he
    exact h.output s _ hs
  · cases he

theorem readText (h : Closed P) {s : State} (hs : P s) {len : Nat} (hl : len = 2 ∨ len = 3) {t : Word} {s' : State}
    (he : Machine.readText len t s = .next s') : P s' := by
  unfold Machine.readText at he
  split at he
  · exact h.completed (fun u hu => by cases hu; exact h.storeText (h.takeInput s _ _ ‹_› hs) _ _) he
  · cases he
    exact h.wait s t len hl hs

theorem mathOperation (h : Closed P) {s : State} (hs : P s) {f : Word → Word → Word} {s' : State}
    (he : Machine.mathOperation f s = .next s') : P s' := by
  cases he
  exact h.withSp _ _ (h.writeStack hs _ _)

theorem resumeWithInput (h : Closed P) {s : State} (hs : P s) {text : List Byte} {s' : State}
    (he : Machine.resumeWithInput text s = .next s') : P s' := by
  unfold Machine.resumeWithInput at he
  split at he
  · cases he
  · split at he
    · cases he
    · exact h.completed (fun u hu => by cases hu; exact h.resume _ (h.storeText hs _ _)) he

/-- What each elementary change keeps, every instruction keeps. -/
theorem exec (h : Closed P) {i : Instr} {s s' : State} (hs : P s) (he : Machine.exec i s = .next s') : P s' := by
  have direct : ∀ {n t}, P t → Machine.completed n (.next t) = .next s' → P s' := fun ht he =>
    h.completed (fun u hu => by cases hu; exact ht) he
  have math : ∀ {f}, Machine.completed 1 (Machine.mathOperation f s) = .next s' → P s' := fun he =>
    h.completed (fun t ht => h.mathOperation hs ht) he
  have jump : ∀ {kind t}, Machine.jumpTo kind 3 t s = .next s' → P s' := fun he => h.jumpTo hs he
  have jumpReg : ∀ {kind r}, Machine.jumpToRegister kind r s = .next s' → P s' := fun he =>
    withRegister _ (fun reg t ht => h.jumpTo hs ht) he
  have viaReg : ∀ {n r} {body : Word → Result}, (∀ v t, body v = .next t → P t) →
      Machine.completed n (Machine.withRegisterValue r s body) = .next s' → P s' := fun hb he =>
    h.completed (fun t ht => withRegister _ (fun reg u hu => hb _ u hu) ht) he
  cases i with
  | nop => exact direct hs he
  | imm r v => exact h.completed (fun t ht => withRegister _ (fun reg u hu => h.setReg hs _ _ hu) ht) he
  | mov dst src => exact h.completed (fun t ht => h.setReg hs _ _ ht) he
  | lda r => exact viaReg (fun v t ht => by cases ht; exact h.withA s _ hs) he
  | ldb r => exact viaReg (fun v t ht => by cases ht; exact h.withB s _ hs) he
  | sta r => exact viaReg (fun v t ht => by cases ht; exact h.writeWord hs _ _) he
  | stb r => exact viaReg (fun v t ht => by cases ht; exact h.writeWord hs _ _) he
  | push r => exact viaReg (fun v t ht => by cases ht; exact h.writeStack hs _ _) he
  | pop r => exact h.completed (fun t ht => withRegister _ (fun reg u hu => h.setReg hs _ _ hu) ht) he
  | add => exact math he
  | sub => exact math he
  | mul => exact math he
  | div => exact math he
  | and => exact math he
  | or => exact math he
  | xor => exact math he
  | not => exact direct (h.withSp _ _ (h.writeStack hs _ _)) he
  | cmp => exact direct (h.withSp _ _ (h.withFlags _ _ hs)) he
  | jeAddr t => exact jump he
  | jneAddr t => exact jump he
  | jgtAddr t => exact jump he
  | jltAddr t => exact jump he
  | jgeAddr t => exact jump he
  | jleAddr t => exact jump he
  | jeReg r => exact jumpReg he
  | jneReg r => exact jumpReg he
  | jgtReg r => exact jumpReg he
  | jltReg r => exact jumpReg he
  | jgeReg r => exact jumpReg he
  | jleReg r => exact jumpReg he
  | writeAddr t => exact h.completed (fun u hu => h.writeText hs hu) he
  | writeReg r => exact viaReg (fun v t ht => h.writeText hs ht) he
  | readAddr t => exact h.readText hs (.inr rfl) he
  | readReg r => exact withRegister _ (fun reg t ht => h.readText hs (.inl rfl) ht) he

/-- What each elementary change keeps, every step keeps. -/
theorem step (h : Closed P) {s s' : State} (hs : P s) (he : Machine.step s = .next s') : P s' := by
  unfold Machine.step at he
  split at he
  · cases he
  · split at he
    · unfold resumeFromEnvironment at he
      split at he
      · exact h.resumeWithInput (h.takeInput s _ _ ‹_› hs) he
      · exact h.resumeWithInput (h.drawInput s hs) he
    · split at he
      · exact h.exec hs he
      · cases he

end Closed

/-- The rules' arithmetic of a little-endian word is the decoder's and the memory's `wordOf` (20_memory.md R64). -/
theorem littleEndian_eq_wordOf (lo hi : Byte) : littleEndian lo hi = wordOf lo hi := by
  apply BitVec.eq_of_toNat_eq
  have hl := lo.isLt
  have hh := hi.isLt
  have : (wordOf lo hi).toNat = hi.toNat <<< 8 ||| lo.toNat := BitVec.toNat_append _ _
  rw [this, Nat.shiftLeft_eq, Nat.mul_comm, ← Nat.two_pow_add_eq_or_of_lt hl]
  simp only [littleEndian, BitVec.toNat_ofNat]
  omega

/-- A step of a machine that neither is halted nor waits runs the instruction decoded at IP (30_encoding.md R113). -/
theorem step_of_fetch {s : State} {i : Instr} {rest : List Byte} (hh : s.halted = false) (hp : s.pending = none)
    (hf : fetchInstr s = .ok (i, rest)) : Machine.step s = Machine.exec i s := by
  simp [Machine.step, hh, hp, hf]

end Sys2Proof.Machine
end

