-- ==== Sys2Proof/Laws/Fetch.lean ====
section
/-! SUPPORT. What placing a byte for the next fetch does. -/

namespace Sys2Proof.Machine

theorem BankBuf.read_patch_same {b : BankBuf} {o hi : Nat} {v : Byte} (h : b.cells.within 0 hi = true) :
    (b.patch o v).read o = v := by
  rw [BankBuf.read, if_pos (show o < (b.patch o v).supplied from by simp only [BankBuf.patch]; omega)]
  exact Memory.read_write_same h

theorem BankBuf.read_patch_other {b : BankBuf} {o p : Nat} {v : Byte} (h : p ≠ o) (hs : p < b.supplied) :
    (b.patch o v).read p = b.read p := by
  rw [BankBuf.read, BankBuf.read, if_pos hs,
    if_pos (show p < (b.patch o v).supplied from by simp only [BankBuf.patch]; omega)]
  exact Memory.read_write_other h

/-- A placed byte is read back, and the forms of RAM and of the bank buffer's cells are kept. -/
theorem placeByte_same {s : State} {a : Word} {v : Byte} (hr : s.ram.wf = true)
    (hb : s.bankBuf.cells.within 0 bankSize = true) :
    readByte (placeByte s a v) a = v ∧ (placeByte s a v).ip = s.ip ∧ (placeByte s a v).ram.wf = true ∧
      (placeByte s a v).bankBuf.cells.within 0 bankSize = true := by
  have ha := a.isLt
  unfold placeByte
  split
  · refine ⟨?_, rfl, Memory.write_wf hr ‹_›, hb⟩
    rw [readByte_ram ‹_›]
    exact Memory.read_write_same hr
  · rename_i h
    refine ⟨?_, rfl, hr, Memory.write_within hb (Nat.zero_le _) (by simp only [ramSize, bankSize] at *; omega)⟩
    rw [readByte_window h]
    exact BankBuf.read_patch_same hb

/-- Whether an address is one of RAM or of the supplied part of the window. -/
def supplied (s : State) (a : Word) : Prop := a.toNat < ramSize ∨ a.toNat - ramSize < s.bankBuf.supplied

theorem supplied_placeByte (s : State) (a : Word) (v : Byte) : supplied (placeByte s a v) a := by
  unfold supplied placeByte
  split
  · exact .inl ‹_›
  · right
    simp only [BankBuf.patch]
    omega

/-- A placed byte leaves every other supplied address as it was. -/
theorem placeByte_other {s : State} {a b : Word} {v : Byte} (h : b ≠ a) (hs : supplied s b) :
    readByte (placeByte s a v) b = readByte s b ∧ supplied (placeByte s a v) b := by
  have hn : b.toNat ≠ a.toNat := fun e => h (BitVec.eq_of_toNat_eq e)
  unfold supplied at *
  unfold placeByte
  split
  · refine ⟨?_, hs⟩
    by_cases hb : b.toNat < ramSize
    · rw [readByte_ram hb, readByte_ram hb]
      exact Memory.read_write_other hn
    · rw [readByte_window hb, readByte_window hb]
      rfl
  · by_cases hb : b.toNat < ramSize
    · exact ⟨by rw [readByte_ram hb, readByte_ram hb], .inl hb⟩
    · have hs' := hs.resolve_left hb
      refine ⟨?_, .inr (by simp only [BankBuf.patch]; omega)⟩
      rw [readByte_window hb, readByte_window hb]
      exact BankBuf.read_patch_other (by omega) hs'

end Sys2Proof.Machine
end

