-- ==== Sys2Proof/Laws/Outcomes.lean ====
section
/-! SUPPORT. What an instruction can answer, said once: never a refusal, one of three faults, or a next state of one
of the forms of `Body`, advanced. -/

namespace Sys2Proof.Machine

/-! ## What an advance of IP keeps -/

/-- The components that no advance of IP changes (10_state.md R33, R34). -/
structure AdvanceKept (s t : State) : Prop where
  a : t.a = s.a
  b : t.b = s.b
  x : t.x = s.x
  y : t.y = s.y
  sp : t.sp = s.sp
  bankNum : t.bankNum = s.bankNum
  flags : t.flags = s.flags
  ram : t.ram = s.ram
  halted : t.halted = s.halted
  pending : t.pending = s.pending
  cfg : t.cfg = s.cfg
  inputs : t.inputs = s.inputs

theorem advanceIP_kept (n : Nat) (s : State) : AdvanceKept s (advanceIP n s) :=
  advanceIP_keeps (P := AdvanceKept s) (fun _ _ h => ⟨h.1, h.2, h.3, h.4, h.5, h.6, h.7, h.8, h.9, h.10, h.11, h.12⟩)
    (fun _ _ h => ⟨h.1, h.2, h.3, h.4, h.5, h.6, h.7, h.8, h.9, h.10, h.11, h.12⟩) n s
    ⟨rfl, rfl, rfl, rfl, rfl, rfl, rfl, rfl, rfl, rfl, rfl, rfl⟩

theorem AdvanceKept.getReg {s t : State} (h : AdvanceKept s t) {r : Reg} (hr : r ≠ .IP) :
    Machine.getReg t r = Machine.getReg s r := by
  cases r <;> simp [Machine.getReg, h.a, h.b, h.x, h.y, h.sp, h.flags, h.bankNum] at *

/-- A Preloaded machine maps no bank by an advance (R33). -/
theorem advanceIP_preloaded (n : Nat) {s : State} (h : s.cfg.variant = .preloaded) :
    ∃ v, advanceIP n s = s.withIp v := by
  induction n generalizing s with
  | zero => exact ⟨s.ip, rfl⟩
  | succ n ih =>
    obtain ⟨v, hv⟩ | ⟨-, h2, -⟩ := nextIP_cases s
    · obtain ⟨w, hw⟩ := ih (s := nextIP s) (by rw [hv]; exact h)
      exact ⟨w, by rw [advanceIP, hw, hv]; rfl⟩
    · rw [h] at h2
      cases h2

/-! ## Refusals and faults -/

section
variable {s : State} {r : Byte} {body : Reg → Result}

theorem withRegister_refused {e : Refusal} (h : withRegister r s body = .refused e) : ∃ g, body g = .refused e := by
  obtain ⟨g, -, he⟩ | ⟨-, he⟩ := withRegister_cases r s body
  · exact ⟨g, he ▸ h⟩
  · rw [he] at h
    cases h

theorem withRegister_fault {f : Fault} (h : withRegister r s body = .fault f) :
    (∃ g, Reg.ofByte? r = some g ∧ body g = .fault f) ∨
      (Reg.ofByte? r = none ∧ f = .invalidRegister r (s.withHalted true)) := by
  obtain ⟨g, hg, he⟩ | ⟨hg, he⟩ := withRegister_cases r s body
  · exact .inl ⟨g, hg, he ▸ h⟩
  · rw [he] at h
    cases h
    exact .inr ⟨hg, rfl⟩

theorem withRegister_next {t : State} (h : withRegister r s body = .next t) :
    ∃ g, Reg.ofByte? r = some g ∧ body g = .next t := by
  obtain ⟨g, hg, he⟩ | ⟨-, he⟩ := withRegister_cases r s body
  · exact ⟨g, hg, he ▸ h⟩
  · rw [he] at h
    cases h

end

theorem setReg_ne_refused (s : State) (d : Reg) (v : Word) (e : Refusal) : setReg s d v ≠ .refused e := by
  intro h
  obtain ⟨-, t, ht, -⟩ | ⟨-, -, ht⟩ | ⟨-, -, -, ht⟩ := setReg_cases s d v <;> rw [ht] at h <;> cases h

theorem setReg_fault {s : State} {d : Reg} {v : Word} {f : Fault} (h : setReg s d v = .fault f) :
    d = .BankNum ∧ s.cfg.variant = .preloaded ∧ s.cfg.nbanks ≤ (loByte v).toNat ∧
      f = .outOfRangeBank (loByte v).toNat (s.withHalted true) := by
  obtain ⟨-, t, ht, -⟩ | ⟨-, -, ht⟩ | ⟨h1, h2, h3, ht⟩ := setReg_cases s d v <;> rw [ht] at h <;> cases h
  exact ⟨h1, h2, h3, rfl⟩

theorem jumpTo_next (k : JumpKind) (n : Nat) (t : Word) (s : State) :
    jumpTo k n t s = .next (if condition k s.flags then s.withIp t else advanceIP n s) := by
  unfold jumpTo
  split <;> rfl

theorem writeText_cases (t : Word) (s : State) :
    (∃ text, scanText s t scanLimit = some text ∧ writeText t s = .next (s.emit (.output text))) ∨
      (scanText s t scanLimit = none ∧ writeText t s = .fault (.writeNeverCompletes t)) := by
  cases h : scanText s t scanLimit with
  | none => exact .inr ⟨rfl, by simp [writeText, h]⟩
  | some text => exact .inl ⟨text, rfl, by simp [writeText, h]⟩

theorem readText_cases (n : Nat) (t : Word) (s : State) :
    (∃ text later, s.inputs = text :: later ∧
        readText n t s = .next (advanceIP n (storeText { s with inputs := later } t text))) ∨
      (s.inputs = [] ∧ readText n t s = .next (s.withPending (some { target := t, len := n }))) := by
  unfold readText
  split
  · exact .inl ⟨_, _, ‹_›, rfl⟩
  · exact .inr ⟨‹_›, rfl⟩

/-- No instruction is refused. -/
theorem exec_ne_refused (i : Instr) (s : State) (e : Refusal) : exec i s ≠ .refused e := by
  intro h
  have direct : ∀ {n t}, completed n (.next t) ≠ .refused e := fun h => by cases h
  have jump : ∀ {k n t}, jumpTo k n t s ≠ .refused e := by
    intro k n t h
    rw [jumpTo_next] at h
    cases h
  have read : ∀ {n t}, readText n t s ≠ .refused e := by
    intro n t h
    obtain ⟨_, _, -, he⟩ | ⟨-, he⟩ := readText_cases n t s <;> rw [he] at h <;> cases h
  have write : ∀ {t}, writeText t s ≠ .refused e := by
    intro t h
    obtain ⟨_, -, he⟩ | ⟨-, he⟩ := writeText_cases t s <;> rw [he] at h <;> cases h
  have viaReg : ∀ {n r} {body : Reg → Result}, completed n (withRegister r s body) = .refused e →
      (∀ g, body g ≠ .refused e) → False := by
    intro n r body h hb
    obtain ⟨g, hg⟩ := withRegister_refused (completed_eq_refused h)
    exact hb g hg
  have jumpReg : ∀ {k r}, jumpToRegister k r s ≠ .refused e := by
    intro k r h
    obtain ⟨g, hg⟩ := withRegister_refused h
    exact jump hg
  cases i with
  | imm => exact viaReg h fun g => setReg_ne_refused _ _ _ _
  | mov => exact setReg_ne_refused _ _ _ _ (completed_eq_refused h)
  | lda => exact viaReg h fun _ => nofun
  | ldb => exact viaReg h fun _ => nofun
  | sta => exact viaReg h fun _ => nofun
  | stb => exact viaReg h fun _ => nofun
  | push => exact viaReg h fun _ => nofun
  | pop => exact viaReg h fun g => setReg_ne_refused _ _ _ _
  | jeAddr => exact jump h
  | jneAddr => exact jump h
  | jgtAddr => exact jump h
  | jltAddr => exact jump h
  | jgeAddr => exact jump h
  | jleAddr => exact jump h
  | jeReg => exact jumpReg h
  | jneReg => exact jumpReg h
  | jgtReg => exact jumpReg h
  | jltReg => exact jumpReg h
  | jgeReg => exact jumpReg h
  | jleReg => exact jumpReg h
  | writeAddr => exact write (completed_eq_refused h)
  | writeReg => exact viaReg h fun _ => write
  | readAddr => exact read h
  | readReg =>
    obtain ⟨g, hg⟩ := withRegister_refused h
    exact read hg
  | nop => exact direct h
  | add => exact direct h
  | sub => exact direct h
  | mul => exact direct h
  | div => exact direct h
  | and => exact direct h
  | or => exact direct h
  | xor => exact direct h
  | not => exact direct h
  | cmp => exact direct h

/-- An instruction that faults does so on an illegal register index or on a Preloaded bank number out of range, or it
is a WRITE that never completes (60_exceptions.md R210, R211, 44_io.md R201). -/
theorem exec_fault_cases {i : Instr} {s : State} {f : Fault} (h : exec i s = .fault f) :
    (∃ r, i.registerOperand = some r ∧ Reg.ofByte? r = none ∧ f = .invalidRegister r (s.withHalted true)) ∨
      (∃ w, (i = .imm 6#8 w ∨ (∃ src, i = .mov .BankNum src ∧ w = getReg s src) ∨
            (i = .pop 6#8 ∧ w = readStack s s.sp)) ∧
          s.cfg.variant = .preloaded ∧ s.cfg.nbanks ≤ (loByte w).toNat ∧
          f = .outOfRangeBank (loByte w).toNat (s.withHalted true)) ∨
        ∃ t, (i = .writeAddr t ∨ ∃ r g, i = .writeReg r ∧ Reg.ofByte? r = some g ∧ t = getReg s g) ∧
          scanText s t scanLimit = none ∧ f = .writeNeverCompletes t := by
  have six : ∀ {r}, Reg.ofByte? r = some .BankNum → r = 6#8 := by decide
  have onlyReg : ∀ {r} {body : Reg → Result}, (∀ g, body g ≠ .fault f) → withRegister r s body = .fault f →
      Reg.ofByte? r = none ∧ f = .invalidRegister r (s.withHalted true) := by
    intro r body hb hf
    obtain ⟨g, -, hg⟩ | hx := withRegister_fault hf
    · exact absurd hg (hb g)
    · exact hx
  have viaReg : ∀ {n r} {body : Reg → Result}, completed n (withRegister r s body) = .fault f →
      (∀ g, body g ≠ .fault f) → Reg.ofByte? r = none ∧ f = .invalidRegister r (s.withHalted true) := fun hf hb =>
    onlyReg hb (completed_eq_fault hf)
  have jump : ∀ {k n t}, jumpTo k n t s ≠ .fault f := by
    intro k n t h
    rw [jumpTo_next] at h
    cases h
  have read : ∀ {n t}, readText n t s ≠ .fault f := by
    intro n t h
    obtain ⟨_, _, -, he⟩ | ⟨-, he⟩ := readText_cases n t s <;> rw [he] at h <;> cases h
  have write : ∀ {t}, writeText t s = .fault f → scanText s t scanLimit = none ∧ f = .writeNeverCompletes t := by
    intro t h
    obtain ⟨_, -, he⟩ | ⟨hn, he⟩ := writeText_cases t s <;> rw [he] at h <;> cases h
    exact ⟨hn, rfl⟩
  cases i with
  | imm r v =>
    obtain ⟨g, hg, hb⟩ | hx := withRegister_fault (completed_eq_fault h)
    · obtain ⟨rfl, hw⟩ := setReg_fault hb
      exact .inr (.inl ⟨v, .inl (by rw [six hg]), hw⟩)
    · exact .inl ⟨r, rfl, hx⟩
  | mov d src =>
    obtain ⟨rfl, hw⟩ := setReg_fault (completed_eq_fault h)
    exact .inr (.inl ⟨_, .inr (.inl ⟨src, rfl, rfl⟩), hw⟩)
  | lda r => exact .inl ⟨r, rfl, viaReg h fun _ => nofun⟩
  | ldb r => exact .inl ⟨r, rfl, viaReg h fun _ => nofun⟩
  | sta r => exact .inl ⟨r, rfl, viaReg h fun _ => nofun⟩
  | stb r => exact .inl ⟨r, rfl, viaReg h fun _ => nofun⟩
  | push r => exact .inl ⟨r, rfl, viaReg h fun _ => nofun⟩
  | pop r =>
    obtain ⟨g, hg, hb⟩ | hx := withRegister_fault (completed_eq_fault h)
    · obtain ⟨rfl, hw⟩ := setReg_fault hb
      exact .inr (.inl ⟨_, .inr (.inr ⟨by rw [six hg], rfl⟩), hw⟩)
    · exact .inl ⟨r, rfl, hx⟩
  | jeAddr => exact absurd h jump
  | jneAddr => exact absurd h jump
  | jgtAddr => exact absurd h jump
  | jltAddr => exact absurd h jump
  | jgeAddr => exact absurd h jump
  | jleAddr => exact absurd h jump
  | jeReg r => exact .inl ⟨r, rfl, onlyReg (fun _ => jump) h⟩
  | jneReg r => exact .inl ⟨r, rfl, onlyReg (fun _ => jump) h⟩
  | jgtReg r => exact .inl ⟨r, rfl, onlyReg (fun _ => jump) h⟩
  | jltReg r => exact .inl ⟨r, rfl, onlyReg (fun _ => jump) h⟩
  | jgeReg r => exact .inl ⟨r, rfl, onlyReg (fun _ => jump) h⟩
  | jleReg r => exact .inl ⟨r, rfl, onlyReg (fun _ => jump) h⟩
  | writeAddr t => exact .inr (.inr ⟨t, .inl rfl, write (completed_eq_fault h)⟩)
  | writeReg r =>
    obtain ⟨g, hg, hb⟩ | hx := withRegister_fault (completed_eq_fault h)
    · exact .inr (.inr ⟨_, .inr ⟨r, g, rfl, hg, rfl⟩, write hb⟩)
    · exact .inl ⟨r, rfl, hx⟩
  | readAddr => exact absurd h read
  | readReg r => exact .inl ⟨r, rfl, onlyReg (fun _ => read) h⟩
  | nop => cases h
  | add => cases h
  | sub => cases h
  | mul => cases h
  | div => cases h
  | and => cases h
  | or => cases h
  | xor => cases h
  | not => cases h
  | cmp => cases h

/-! ## Next states -/

/-- Whether an instruction is one of the twelve jumps. -/
def isJump (i : Instr) : Prop :=
  match i.operation with
  | .jeAddr | .jneAddr | .jgtAddr | .jltAddr | .jgeAddr | .jleAddr => True
  | .jeReg | .jneReg | .jgtReg | .jltReg | .jgeReg | .jleReg => True
  | _ => False

/-- Whether an instruction is one of the seven MathOperations (42_alu.md R160). -/
def isMath (i : Instr) : Prop :=
  i = .add ∨ i = .sub ∨ i = .mul ∨ i = .div ∨ i = .and ∨ i = .or ∨ i = .xor

/-- The target of a READ form (44_io.md R203, R204). -/
def readsTo (i : Instr) (s : State) (t : Word) : Prop :=
  i = .readAddr t ∨ ∃ r g, i = .readReg r ∧ Reg.ofByte? r = some g ∧ t = getReg s g

/-- The state `t` that an instruction's own effect leaves in `s`, before the advance that ends the step. -/
inductive Body (s : State) : Instr → State → Prop
  | nop : Body s .nop s
  | imm {r g v t} : Reg.ofByte? r = some g → setReg s g v = .next t → Body s (.imm r v) t
  | mov {d src t} : setReg s d (getReg s src) = .next t → Body s (.mov d src) t
  | lda {r g} : Reg.ofByte? r = some g → Body s (.lda r) (s.withA (readWord s (getReg s g)))
  | ldb {r g} : Reg.ofByte? r = some g → Body s (.ldb r) (s.withB (readWord s (getReg s g)))
  | sta {r g} : Reg.ofByte? r = some g → Body s (.sta r) (writeWord s (getReg s g) s.a)
  | stb {r g} : Reg.ofByte? r = some g → Body s (.stb r) (writeWord s (getReg s g) s.b)
  | push {r g} : Reg.ofByte? r = some g → Body s (.push r) (writeStack s s.sp (getReg s g))
  | pop {r g t} : Reg.ofByte? r = some g → setReg s g (readStack s s.sp) = .next t → Body s (.pop r) t
  | math {i v} : isMath i → Body s i ((writeStack s (prevSP4 s.sp) v).withSp (prevSP2 s.sp))
  | not {v} : Body s .not ((writeStack s (prevSP2 s.sp) v).withSp s.sp)
  | cmp {a b} : Body s .cmp ((s.withFlags (compareFlags s.flags a b)).withSp (prevSP4 s.sp))
  | jump {i} : isJump i → Body s i s
  | writeAddr {t text} : Body s (.writeAddr t) (s.emit (.output text))
  | writeReg {r text} : Body s (.writeReg r) (s.emit (.output text))
  | read {i t text later} : readsTo i s t → s.inputs = text :: later →
      Body s i (storeText { s with inputs := later } t text)

theorem nextSP_nextSP_prevSP2 (p : StackPtr) : nextSP (nextSP (prevSP2 p)) = p := by
  simp [nextSP, prevSP2, prevSP]

theorem nextSP_nextSP_prevSP4 (p : StackPtr) : nextSP (nextSP (prevSP4 p)) = prevSP2 p :=
  nextSP_nextSP_prevSP2 (prevSP2 p)

/-- A next state of an instruction: its body's state advanced, or the target of a taken jump, or a READ that waits. -/
theorem exec_next_cases {i : Instr} {s s' : State} (h : exec i s = .next s') :
    (∃ t, Body s i t ∧ s' = advanceIP i.length t) ∨ (isJump i ∧ ∃ t, s' = s.withIp t) ∨
      ∃ t, readsTo i s t ∧ s.inputs = [] ∧ s' = s.withPending (some { target := t, len := i.length }) := by
  have math : ∀ {f}, isMath i → completed 1 (mathOperation f s) = .next s' → i.length = 1 →
      ∃ t, Body s i t ∧ s' = advanceIP i.length t := by
    intro f hi he hl
    simp only [mathOperation, nextSP_nextSP_prevSP4, completed_next] at he
    cases he
    exact ⟨_, .math hi, by rw [hl]⟩
  have jump : ∀ {k n t}, isJump i → jumpTo k n t s = .next s' → i.length = n →
      (∃ t, Body s i t ∧ s' = advanceIP i.length t) ∨ (isJump i ∧ ∃ t, s' = s.withIp t) := by
    intro k n t hi he hl
    rw [jumpTo_next] at he
    split at he <;> cases he
    · exact .inr ⟨hi, t, rfl⟩
    · exact .inl ⟨s, .jump hi, by rw [hl]⟩
  have jumpReg : ∀ {k r}, isJump i → jumpToRegister k r s = .next s' → i.length = 2 →
      (∃ t, Body s i t ∧ s' = advanceIP i.length t) ∨ (isJump i ∧ ∃ t, s' = s.withIp t) := by
    intro k r hi he hl
    obtain ⟨g, -, hb⟩ := withRegister_next he
    exact jump hi hb hl
  have assoc : ∀ {A B C : Prop}, A ∨ B → A ∨ B ∨ C := fun h => h.elim .inl fun hb => .inr (.inl hb)
  have write : ∀ {t u}, writeText t s = .next u → ∃ text, u = s.emit (.output text) := by
    intro t u he
    obtain ⟨text, -, hw⟩ | ⟨-, hw⟩ := writeText_cases t s <;> rw [hw] at he <;> cases he
    exact ⟨text, rfl⟩
  have read : ∀ {n t}, readsTo i s t → readText n t s = .next s' → i.length = n →
      (∃ t, Body s i t ∧ s' = advanceIP i.length t) ∨ (isJump i ∧ ∃ t, s' = s.withIp t) ∨
        ∃ t, readsTo i s t ∧ s.inputs = [] ∧ s' = s.withPending (some { target := t, len := i.length }) := by
    intro n t hr he hl
    obtain ⟨text, later, hi, hw⟩ | ⟨hi, hw⟩ := readText_cases n t s <;> rw [hw] at he <;> cases he
    · exact .inl ⟨_, .read hr hi, by rw [hl]⟩
    · exact .inr (.inr ⟨t, hr, hi, by rw [hl]⟩)
  have viaReg : ∀ {n r} {body : Reg → Result}, completed n (withRegister r s body) = .next s' →
      ∃ g t, Reg.ofByte? r = some g ∧ body g = .next t ∧ s' = advanceIP n t := by
    intro n r body he
    obtain ⟨t, ht, hs⟩ := completed_eq_next he
    obtain ⟨g, hg, hb⟩ := withRegister_next ht
    exact ⟨g, t, hg, hb, hs⟩
  cases i with
  | nop => cases h; exact .inl ⟨s, .nop, rfl⟩
  | imm r v =>
    obtain ⟨g, t, hg, ht, hs⟩ := viaReg h
    exact .inl ⟨t, .imm hg ht, hs⟩
  | mov d src =>
    obtain ⟨t, ht, hs⟩ := completed_eq_next h
    exact .inl ⟨t, .mov ht, hs⟩
  | lda r => obtain ⟨g, t, hg, ht, hs⟩ := viaReg h; cases ht; exact .inl ⟨_, .lda hg, hs⟩
  | ldb r => obtain ⟨g, t, hg, ht, hs⟩ := viaReg h; cases ht; exact .inl ⟨_, .ldb hg, hs⟩
  | sta r => obtain ⟨g, t, hg, ht, hs⟩ := viaReg h; cases ht; exact .inl ⟨_, .sta hg, hs⟩
  | stb r => obtain ⟨g, t, hg, ht, hs⟩ := viaReg h; cases ht; exact .inl ⟨_, .stb hg, hs⟩
  | push r => obtain ⟨g, t, hg, ht, hs⟩ := viaReg h; cases ht; exact .inl ⟨_, .push hg, hs⟩
  | pop r =>
    obtain ⟨g, t, hg, ht, hs⟩ := viaReg h
    exact .inl ⟨t, .pop hg ht, hs⟩
  | add => exact .inl (math (by simp [isMath]) h rfl)
  | sub => exact .inl (math (by simp [isMath]) h rfl)
  | mul => exact .inl (math (by simp [isMath]) h rfl)
  | div => exact .inl (math (by simp [isMath]) h rfl)
  | and => exact .inl (math (by simp [isMath]) h rfl)
  | or => exact .inl (math (by simp [isMath]) h rfl)
  | xor => exact .inl (math (by simp [isMath]) h rfl)
  | not =>
    simp only [exec, execNot, nextSP_nextSP_prevSP2, completed_next] at h
    cases h
    exact .inl ⟨_, .not, rfl⟩
  | cmp => cases h; exact .inl ⟨_, .cmp, rfl⟩
  | jeAddr t => exact assoc (jump trivial h rfl)
  | jneAddr t => exact assoc (jump trivial h rfl)
  | jgtAddr t => exact assoc (jump trivial h rfl)
  | jltAddr t => exact assoc (jump trivial h rfl)
  | jgeAddr t => exact assoc (jump trivial h rfl)
  | jleAddr t => exact assoc (jump trivial h rfl)
  | jeReg r => exact assoc (jumpReg trivial h rfl)
  | jneReg r => exact assoc (jumpReg trivial h rfl)
  | jgtReg r => exact assoc (jumpReg trivial h rfl)
  | jltReg r => exact assoc (jumpReg trivial h rfl)
  | jgeReg r => exact assoc (jumpReg trivial h rfl)
  | jleReg r => exact assoc (jumpReg trivial h rfl)
  | writeAddr t =>
    obtain ⟨u, hu, hs⟩ := completed_eq_next h
    obtain ⟨text, rfl⟩ := write hu
    exact .inl ⟨_, .writeAddr, hs⟩
  | writeReg r =>
    obtain ⟨g, u, -, hu, hs⟩ := viaReg h
    obtain ⟨text, rfl⟩ := write hu
    exact .inl ⟨_, .writeReg, hs⟩
  | readAddr t => exact read (.inl rfl) h rfl
  | readReg r =>
    obtain ⟨g, hg, hb⟩ := withRegister_next h
    exact read (.inr ⟨r, g, rfl, hg, rfl⟩) hb rfl

end Sys2Proof.Machine
end

