-- ==== Sys2Proof/Laws/PerInstr.lean ====
section
/-! SUPPORT. Facts about every instruction as syntax, one lemma per constructor. -/

namespace Sys2Proof.Laws

/-- An instruction has as many bytes as its operand kinds say, one opcode byte and its operand bytes
(30_encoding.md R100). -/
def EncodedLength.Statement (i : Instr) : Prop := i.length = 1 + (operandBytes i).length

theorem EncodedLength.nop : EncodedLength.Statement (.nop) := rfl
theorem EncodedLength.imm (r : Byte) (v : Word) : EncodedLength.Statement (.imm r v) := rfl
theorem EncodedLength.mov (dst : Reg) (src : Reg) : EncodedLength.Statement (.mov dst src) := rfl
theorem EncodedLength.lda (r : Byte) : EncodedLength.Statement (.lda r) := rfl
theorem EncodedLength.ldb (r : Byte) : EncodedLength.Statement (.ldb r) := rfl
theorem EncodedLength.sta (r : Byte) : EncodedLength.Statement (.sta r) := rfl
theorem EncodedLength.stb (r : Byte) : EncodedLength.Statement (.stb r) := rfl
theorem EncodedLength.push (r : Byte) : EncodedLength.Statement (.push r) := rfl
theorem EncodedLength.pop (r : Byte) : EncodedLength.Statement (.pop r) := rfl
theorem EncodedLength.add : EncodedLength.Statement (.add) := rfl
theorem EncodedLength.sub : EncodedLength.Statement (.sub) := rfl
theorem EncodedLength.mul : EncodedLength.Statement (.mul) := rfl
theorem EncodedLength.div : EncodedLength.Statement (.div) := rfl
theorem EncodedLength.and : EncodedLength.Statement (.and) := rfl
theorem EncodedLength.or : EncodedLength.Statement (.or) := rfl
theorem EncodedLength.xor : EncodedLength.Statement (.xor) := rfl
theorem EncodedLength.not : EncodedLength.Statement (.not) := rfl
theorem EncodedLength.cmp : EncodedLength.Statement (.cmp) := rfl
theorem EncodedLength.jeAddr (t : Word) : EncodedLength.Statement (.jeAddr t) := rfl
theorem EncodedLength.jneAddr (t : Word) : EncodedLength.Statement (.jneAddr t) := rfl
theorem EncodedLength.jgtAddr (t : Word) : EncodedLength.Statement (.jgtAddr t) := rfl
theorem EncodedLength.jltAddr (t : Word) : EncodedLength.Statement (.jltAddr t) := rfl
theorem EncodedLength.jgeAddr (t : Word) : EncodedLength.Statement (.jgeAddr t) := rfl
theorem EncodedLength.jleAddr (t : Word) : EncodedLength.Statement (.jleAddr t) := rfl
theorem EncodedLength.jeReg (r : Byte) : EncodedLength.Statement (.jeReg r) := rfl
theorem EncodedLength.jneReg (r : Byte) : EncodedLength.Statement (.jneReg r) := rfl
theorem EncodedLength.jgtReg (r : Byte) : EncodedLength.Statement (.jgtReg r) := rfl
theorem EncodedLength.jltReg (r : Byte) : EncodedLength.Statement (.jltReg r) := rfl
theorem EncodedLength.jgeReg (r : Byte) : EncodedLength.Statement (.jgeReg r) := rfl
theorem EncodedLength.jleReg (r : Byte) : EncodedLength.Statement (.jleReg r) := rfl
theorem EncodedLength.writeAddr (t : Word) : EncodedLength.Statement (.writeAddr t) := rfl
theorem EncodedLength.writeReg (r : Byte) : EncodedLength.Statement (.writeReg r) := rfl
theorem EncodedLength.readAddr (t : Word) : EncodedLength.Statement (.readAddr t) := rfl
theorem EncodedLength.readReg (r : Byte) : EncodedLength.Statement (.readReg r) := rfl

end Sys2Proof.Laws
end

