-- ==== Sys2Proof/Tests/Slice0.lean ====
section
/-! SUPPORT. Tests. A name `v<n>` or `e<n>` names the row of spec/95_test_vectors.md, or the example of FEX it cites,
from which the expected result comes. A theorem `witness_<Name>` shows that the hypotheses of `Obligations.<Name>` can be met,
each clause at a boundary of its range. -/

namespace Sys2Proof.Tests

open Sys2Proof.Machine

/-! ## Helpers -/

/-- The next state of a result, if it has one. -/
def nextOf : Result → Option State
  | .next s => some s
  | .fault _ => none
  | .refused _ => none

/-- The fault of a result, if it has one. -/
def faultOf : Result → Option Fault
  | .fault f => some f
  | .next _ => none
  | .refused _ => none

/-- The refusal of a result, if it has one. -/
def refusalOf : Result → Option Refusal
  | .refused e => some e
  | .next _ => none
  | .fault _ => none

/-- A view of the state after one step. -/
def after {α : Type} (s : State) (view : State → α) : Option α := (nextOf (step s)).map view

/-- A Preloaded machine after reset with a ROM file of the given bytes. -/
def boot (bytes : List Byte) : State :=
  State.resetOf { Config.reference with romFile := .ofBytes bytes }

/-- A Streaming machine after reset with a ROM file of 65552 bytes, the listed ones not zero. -/
def stream (cells : List Host.Cell) : State :=
  State.resetOf { Config.reference with variant := .streaming, romFile := { size := 65552, cells := cells } }

/-- A Preloaded machine after reset whose decode table is the reference one with OPMOD = 34 (D1). -/
def boot34 (bytes : List Byte) : State :=
  State.resetOf { Config.reference with
    romFile := .ofBytes bytes, table := { referenceTable with opmod := 34 } }

/-- "stk(S; a, b)": the word `a` at S - 4, the word `b` at S - 2. -/
def stk (sp : StackPtr) (a b : Word) (s : State) : State :=
  (writeStack (writeStack s (prevSP4 sp) a) (prevSP2 sp) b).withSp sp

/-- RAM with some bytes stored in it. -/
def poke (addr : Word) (bytes : List Byte) (s : State) : State :=
  match bytes with
  | [] => s
  | v :: rest => poke (addr + 1) rest (writeByte s addr v)

/-! ## Well-formedness: one ill-formed term for each check -/

theorem test_wf_accepts : (Instr.imm 7 0x1234).wellFormed referenceTable = true := by decide
theorem test_wf_register_index : (Instr.lda 8).wellFormed referenceTable = false := by decide
theorem test_wf_register_index_last : (Instr.imm 255 0).registersLegal = false := by decide
theorem test_wf_not_encodable : (Instr.readReg 2).wellFormed referenceTable = false := by decide
theorem test_table_admissible : referenceTable.admissible = true := by decide
theorem test_table_zero_modulus : ({ opmod := 0, ops := [.nop] } : DecodeTable).admissible = false := by decide
theorem test_table_too_short : ({ opmod := 3, ops := [.nop, .imm] } : DecodeTable).admissible = false := by decide
theorem test_config_accepts : Config.reference.wf = true := by decide
theorem test_config_no_bank : ({ Config.reference with nbanks := 0 } : Config).wf = false := by decide
theorem test_config_small_image : ({ Config.reference with imageSize := 524287 } : Config).wf = false := by decide
theorem test_config_rom_cell_past_end :
    ({ Config.reference with romFile := { size := 1, cells := [(1, 0x55)] } } : Config).wf = false := by decide
theorem test_memory_not_rising : Memory.wf [(2, 0x11), (1, 0x22)] = false := by decide
theorem test_memory_unlisted_value : Memory.wf [(2, 0x00)] = false := by decide
theorem test_memory_outside_ram : Memory.wf [(0x8000, 0x11)] = false := by decide
theorem test_memory_reset : State.reset.ram.wf = true := by decide
theorem test_memory_write_zero_removes : Memory.write [(1, 0x11), (2, 0x22)] 1 0x00 = [(2, 0x22)] := by decide

/-! ## Decoding: a word of every row of R110 -/

/-- The decoding of bytes under the reference table. -/
def dec (bytes : List Byte) : Decoded := decode referenceTable bytes

theorem test_decode_nop : dec [0x00] = .ok (.nop, []) := rfl
theorem test_decode_imm : dec [0x01, 0x00, 0x34, 0x12] = .ok (.imm 0 0x1234, []) := rfl
theorem test_decode_mov : dec [0x02, 0x10] = .ok (.mov .A .X, []) := rfl
theorem test_decode_lda : dec [0x03, 0x02] = .ok (.lda 2, []) := rfl
theorem test_decode_ldb : dec [0x04, 0xFF] = .ok (.ldb 255, []) := rfl
theorem test_decode_sta : dec [0x05, 0x02] = .ok (.sta 2, []) := rfl
theorem test_decode_stb : dec [0x06, 0x03] = .ok (.stb 3, []) := rfl
theorem test_decode_push : dec [0x07, 0x09] = .ok (.push 9, []) := rfl
theorem test_decode_pop : dec [0x08, 0x06] = .ok (.pop 6, []) := rfl
theorem test_decode_add : dec [0x09] = .ok (.add, []) := rfl
theorem test_decode_sub : dec [0x0A] = .ok (.sub, []) := rfl
theorem test_decode_mul : dec [0x0B] = .ok (.mul, []) := rfl
theorem test_decode_div : dec [0x0C] = .ok (.div, []) := rfl
theorem test_decode_and : dec [0x0D] = .ok (.and, []) := rfl
theorem test_decode_or : dec [0x0E] = .ok (.or, []) := rfl
theorem test_decode_xor : dec [0x0F] = .ok (.xor, []) := rfl
theorem test_decode_not : dec [0x10] = .ok (.not, []) := rfl
theorem test_decode_cmp : dec [0xF8] = .ok (.cmp, []) := rfl
theorem test_decode_je_addr : dec [0x12, 0x10, 0x80] = .ok (.jeAddr 0x8010, []) := rfl
theorem test_decode_jne_addr : dec [0x13, 0x00, 0x90] = .ok (.jneAddr 0x9000, []) := rfl
theorem test_decode_jgt_addr : dec [0x14, 0x34, 0x12] = .ok (.jgtAddr 0x1234, []) := rfl
theorem test_decode_jlt_addr : dec [0x15, 0x00, 0x01] = .ok (.jltAddr 0x0100, []) := rfl
theorem test_decode_jge_addr : dec [0x16, 0x00, 0x40] = .ok (.jgeAddr 0x4000, []) := rfl
theorem test_decode_jle_addr : dec [0x17, 0x00, 0x40] = .ok (.jleAddr 0x4000, []) := rfl
theorem test_decode_je_reg : dec [0xFF, 0x00] = .ok (.jeReg 0, []) := rfl
theorem test_decode_jne_reg : dec [0x19, 0x03] = .ok (.jneReg 3, []) := rfl
theorem test_decode_jgt_reg : dec [0x1A, 0x00] = .ok (.jgtReg 0, []) := rfl
theorem test_decode_jlt_reg : dec [0x1B, 0x01] = .ok (.jltReg 1, []) := rfl
theorem test_decode_jge_reg : dec [0x1C, 0x09] = .ok (.jgeReg 9, []) := rfl
theorem test_decode_jle_reg : dec [0x1D, 0x02] = .ok (.jleReg 2, []) := rfl
theorem test_decode_write_addr : dec [0x1E, 0x00, 0x03] = .ok (.writeAddr 0x0300, []) := rfl
theorem test_decode_write_reg : dec [0x1F, 0x02] = .ok (.writeReg 2, []) := rfl
theorem test_decode_read_addr : dec [0x20, 0x00, 0x04] = .ok (.readAddr 0x0400, []) := rfl
/-- READ reg has an opcode byte under OPMOD = 34 only (R204). -/
theorem test_decode_read_reg :
    decode { referenceTable with opmod := 34 } [0x21, 0x02] = .ok (.readReg 2, []) := rfl
theorem test_decode_alias_21 : dec [0x21, 0x02] = .ok (.nop, [0x02]) := rfl
theorem test_decode_pair_top_bits_ignored : dec [0x02, 0xC2] = .ok (.mov .X .A, []) := rfl
theorem test_decode_truncated : dec [0x01, 0x00, 0x34] = .error .outOfRange := rfl
theorem test_encode_imm : encode (.imm 4 0x9ABC) = some [0x01, 0x04, 0xBC, 0x9A] := by decide
theorem test_encode_mov : encode (.mov .A .X) = some [0x02, 0x10] := by decide
theorem test_encode_read_reg : encode (.readReg 2) = none := by decide
theorem test_table_word : decodeTableWord 32 0x12340001 = some (.imm 0 0x1234) := by decide
/-- Two assembler lines of R117 that share a mnemonic (R111). -/
theorem test_assemble_je :
    (assemble "JE" [.number 0x8010], assemble "JE" [Reg.X.asm]) = (some (.jeAddr 0x8010), some (.jeReg 2)) := by decide
theorem test_assemble_mov : assemble "MOV" [Reg.A.asm, Reg.X.asm] = some (.mov .A .X) := by decide
/-- A window that ends inside its second instruction (R119). -/
theorem test_disassemble : disassemble referenceTable 0x8000 [0x09, 0x01, 0x00] =
    [.instruction { source := 0x8000, opcode := 0x09, operation := .add, kinds := (.none, .none), operands := [], length := 1 },
      .outOfRange 0x8001 0x01,
      .instruction { source := 0x8002, opcode := 0x00, operation := .nop, kinds := (.none, .none), operands := [], length := 1 }] := by
  decide

/-! ## Steps -/

theorem test_v1_nop : after (boot [0x00])
    (fun s => (s.ip, s.trace)) = some (0x8001, []) := by decide
theorem test_v10_imm_a : after (boot [0x01, 0x00, 0x34, 0x12])
    (fun s => (s.a, s.ip)) = some (0x1234, 0x8004) := by decide
theorem test_v14_imm_ip : after (boot [0x01, 0x05, 0xFE, 0x7F])
    (fun s => s.ip) = some (0x0002) := by decide
theorem test_v11_imm_sp : after (boot [0x01, 0x04, 0xBC, 0x9A])
    (fun s => (s.sp, s.ip)) = some (0x1ABC, 0x8004) := by decide
theorem test_v15_imm_flags : after (boot [0x01, 0x07, 0xFD, 0xAB])
    (fun s => s.flags) = some (0xFD) := by decide
theorem test_v26_mov_x_a : after ({ boot [0x02, 0x02] with a := 0x1234 })
    (fun s => (s.x, s.ip)) = some (0x1234, 0x8002) := by decide
theorem test_v29a_mov_ip_ip : after (boot [0x02, 0x2D])
    (fun s => s.ip) = some (0x8002) := by decide
theorem test_v21_lda : after ({ poke 0x7FFF [0xAA] (boot [0x03, 0x02]) with x := 0x7FFF })
    (fun s => (s.a, s.ip)) = some (0x03AA, 0x8002) := by decide
theorem test_v24_lda_ip : after (boot [0x03, 0x05])
    (fun s => s.a) = some (0x0503) := by decide
theorem test_ldb_itself : after ({ boot [0x04, 0x02] with x := 0x8000 })
    (fun s => (s.b, s.ip)) = some (0x0204, 0x8002) := by decide
theorem test_v18_sta : after ({ boot [0x05, 0x02] with x := 0x7FFF, a := 0x1234 })
    (fun s => (debugRead s 0x7FFF 2, s.ip)) = some ([0x34, 0x05], 0x8002) := by decide
theorem test_v19_sta_wrap : after ({ boot [0x05, 0x02] with x := 0xFFFF, a := 0x1234 })
    (fun s => debugRead s 0xFFFF 2) = some ([0x00, 0x12]) := by decide
theorem test_v20_stb : after ({ boot [0x06, 0x03] with y := 0x0200, b := 0xBEEF })
    (fun s => (debugRead s 0x0200 2, s.ip)) = some ([0xEF, 0xBE], 0x8002) := by decide
theorem test_v30_push : after ({ boot [0x07, 0x00] with sp := 0x7FFF, a := 0x1234 })
    (fun s => (readByte s 0x7FFF, readByte s 0x0000, s.sp, s.ip)) = some (0x34, 0x12, 0x7FFF, 0x8002) := by decide
theorem test_v34_push_ip : after ({ boot [0x07, 0x05] with sp := 0x0100 })
    (fun s => debugRead s 0x0100 2) = some ([0x00, 0x80]) := by decide
theorem test_v35_pop : after ({ poke 0x0100 [0xCD, 0xAB] (boot [0x08, 0x02]) with sp := 0x0100 })
    (fun s => (s.x, s.sp, s.ip)) = some (0xABCD, 0x0100, 0x8002) := by decide
theorem test_v36_pop_sp : after ({ poke 0x0100 [0xFF, 0xFF] (boot [0x08, 0x04]) with sp := 0x0100 })
    (fun s => s.sp) = some (0x7FFF) := by decide
theorem test_v40_add : after (stk 0x0104 0x1234 0x1111 (boot [0x09]))
    (fun s => (debugRead s 0x0100 4, s.sp, s.ip, s.flags)) = some ([0x45, 0x23, 0x11, 0x11], 0x0102, 0x8001, 0x00) := by decide
theorem test_v41_add_wraps : after (stk 0x0104 0xFFFF 0x0001 (boot [0x09]))
    (fun s => (debugRead s 0x0100 4, s.sp, s.ip, s.flags)) = some ([0x00, 0x00, 0x01, 0x00], 0x0102, 0x8001, 0x00) := by decide
theorem test_v42_sub_wraps : after (stk 0x0104 0x0000 0x0001 (boot [0x0A]))
    (fun s => (debugRead s 0x0100 4, s.sp, s.ip, s.flags)) = some ([0xFF, 0xFF, 0x01, 0x00], 0x0102, 0x8001, 0x00) := by decide
theorem test_v43_sub : after (stk 0x0104 0x0007 0x0003 (boot [0x0A]))
    (fun s => (debugRead s 0x0100 4, s.sp, s.ip, s.flags)) = some ([0x04, 0x00, 0x03, 0x00], 0x0102, 0x8001, 0x00) := by decide
theorem test_v45_mul : after (stk 0x0104 0xFFFF 0xFFFF (boot [0x0B]))
    (fun s => (debugRead s 0x0100 4, s.sp, s.ip, s.flags)) = some ([0x01, 0x00, 0xFF, 0xFF], 0x0102, 0x8001, 0x00) := by decide
theorem test_v47_div_zero : after (stk 0x0104 0x0007 0x0000 (boot [0x0C]))
    (fun s => (debugRead s 0x0100 4, s.sp, s.ip, s.flags)) = some ([0xFF, 0xFF, 0x00, 0x00], 0x0102, 0x8001, 0x00) := by decide
theorem test_v51_div_unsigned : after (stk 0x0104 0x8000 0xFFFF (boot [0x0C]))
    (fun s => (debugRead s 0x0100 4, s.sp, s.ip, s.flags)) = some ([0x00, 0x00, 0xFF, 0xFF], 0x0102, 0x8001, 0x00) := by decide
theorem test_v52_and : after (stk 0x0104 0xF0F0 0x3C3C (boot [0x0D]))
    (fun s => (debugRead s 0x0100 4, s.sp, s.ip, s.flags)) = some ([0x30, 0x30, 0x3C, 0x3C], 0x0102, 0x8001, 0x00) := by decide
theorem test_v53_or : after (stk 0x0104 0xF0F0 0x3C3C (boot [0x0E]))
    (fun s => (debugRead s 0x0100 4, s.sp, s.ip, s.flags)) = some ([0xFC, 0xFC, 0x3C, 0x3C], 0x0102, 0x8001, 0x00) := by decide
theorem test_v54_xor : after (stk 0x0104 0xF0F0 0x3C3C (boot [0x0F]))
    (fun s => (debugRead s 0x0100 4, s.sp, s.ip, s.flags)) = some ([0xCC, 0xCC, 0x3C, 0x3C], 0x0102, 0x8001, 0x00) := by decide
theorem test_not : after ({ poke 0x0100 [0xF0, 0x0F] (boot [0x10]) with sp := 0x0102 })
    (fun s => (debugRead s 0x0100 2, s.sp, s.ip)) = some ([0x0F, 0xF0], 0x0102, 0x8001) := by decide
theorem test_v63_cmp : after ({ stk 0x0104 0x8000 0x0001 (boot [0x11]) with flags := 0xF8 })
    (fun s => (s.flags, s.sp, s.ip)) = some (0xFA, 0x0100, 0x8001) := by decide
theorem test_v66_cmp_wraps : after (stk 0x0002 1 2 (boot [0x11]))
    (fun s => (s.flags, s.sp)) = some (0x04, 0x7FFE) := by decide

/-- The condition table of spec/95_test_vectors.md section 3.5: for each value of Flags[2:0], whether JE, JNE, JGT, JLT, JGE,
JLE are taken. -/
def conditionTable : List (List Bool) :=
  [[false, true, false, false, false, false], [true, false, false, false, false, false],
    [false, false, true, false, false, false], [false, false, false, false, true, false],
    [false, false, false, true, false, false], [false, false, false, false, false, true],
    [false, false, false, false, false, false], [false, false, false, false, false, false]]

/-- Whether each of six jumps to 0x1234, under Flags = 0xA8 | pattern, ends there. -/
def takenBy (jumps : List Instr) (pattern : Nat) : List Bool :=
  jumps.map fun i =>
    (nextOf (exec i { boot [] with flags := BitVec.ofNat 8 (0xA8 + pattern), x := 0x1234 })).map (·.ip) == some 0x1234

theorem test_jump_addr_table : (List.range 8).map (takenBy [.jeAddr 0x1234, .jneAddr 0x1234, .jgtAddr 0x1234,
    .jltAddr 0x1234, .jgeAddr 0x1234, .jleAddr 0x1234]) = conditionTable := by decide
theorem test_jump_reg_table : (List.range 8).map (takenBy [.jeReg 2, .jneReg 2, .jgtReg 2, .jltReg 2, .jgeReg 2,
    .jleReg 2]) = conditionTable := by decide
theorem test_v75_jle_not_taken : after ({ boot [0x17, 0x00, 0x90] with flags := 0x04 })
    (fun s => s.ip) = some (0x8003) := by decide
theorem test_v71_je_reg_not_taken : after ({ boot [0x18, 0x02] with x := 0x4000 })
    (fun s => s.ip) = some (0x8002) := by decide
theorem test_v78_je_to_ffff : after ({ boot [0x12, 0xFF, 0xFF] with flags := 0x01 })
    (fun s => (s.ip, s.trace)) = some (0xFFFF, []) := by decide
theorem test_v90_nop_at_7fff : after ({ boot [] with ip := 0x7FFF })
    (fun s => s.ip) = some (0x0000) := by decide
theorem test_v91_imm_straddles : after ({ poke 0x7FFD [0x01, 0x00, 0x34] (boot []) with ip := 0x7FFD })
    (fun s => (s.a, s.ip)) = some (0x0034, 0x0001) := by decide
theorem test_v93_preloaded_wrap : after ({ boot [] with ip := 0xFFFF })
    (fun s => (s.ip, s.curBank, s.trace)) = some (0x0000, 0, []) := by decide
theorem test_v94_streaming_next_bank : after ({ stream [] with ip := 0xFFFF })
    (fun s => (s.ip, s.curBank, s.bankNum, s.trace)) = some (0x8000, 1, 0, [.bankSwitched 1]) := by decide
theorem test_v96_streaming_straddle : after ({ poke 0x0000 [0x34, 0x12] (stream [(0x7FFE, 0x01), (0x7FFF, 0x03)]) with ip := 0xFFFE })
    (fun s => (s.y, s.ip, s.curBank)) = some (0x1234, 0x8002, 1) := by decide
theorem test_v100_bank : after (boot [0x01, 0x06, 0x03, 0x01])
    (fun s => (s.bankNum, s.curBank, s.trace, s.ip)) = some (0x03, 3, [.bankSwitched 3], 0x8004) := by decide
theorem test_v102_streaming_bank : after ({ stream [(0, 0x02), (1, 0x06)] with a := 0x0010 })
    (fun s => (s.bankNum, s.curBank, s.trace)) = some (0x10, 16, [.bankSwitched 16]) := by decide
theorem test_v104_same_bank : after (boot [0x01, 0x06, 0x00, 0x00])
    (fun s => (s.curBank, s.trace)) = some (0, [.bankSwitched 0]) := by decide
theorem test_v110_write : after (poke 0x0300 [0x68, 0x69] (boot [0x1E, 0x00, 0x03]))
    (fun s => (s.trace, s.ip)) = some ([.output [0x68, 0x69]], 0x8003) := by decide
theorem test_v113_write_crosses : after (poke 0x7FFE [0x41, 0x42] (boot [0x1E, 0xFE, 0x7F, 0x21, 0x00]))
    (fun s => s.trace) = some ([.output [0x41, 0x42, 0x1E, 0xFE, 0x7F, 0x21]]) := by decide +kernel
theorem test_v114_write_ip : after (boot [0x1F, 0x05, 0x41, 0x00])
    (fun s => (s.trace, s.ip)) = some ([.output [0x1F, 0x05, 0x41]], 0x8002) := by decide +kernel
theorem test_v112_write_reg : after ({ poke 0x0300 [0x68, 0x69] (boot [0x1F, 0x02]) with x := 0x0300 })
    (fun s => (s.trace, s.ip)) = some ([.output [0x68, 0x69]], 0x8002) := by decide
theorem test_v116_read : after ({ boot [0x20, 0x00, 0x04] with inputs := [[0x6F, 0x6B]] })
    (fun s => (debugRead s 0x0400 3, s.ip, s.inputs)) = some ([0x6F, 0x6B, 0x00], 0x8003, []) := by decide
theorem test_v120_read_wraps : after ({ boot [0x20, 0xFF, 0xFF] with inputs := [[0x78, 0x79, 0x7A]] })
    (fun s => debugRead s 0xFFFF 4) = some ([0x00, 0x79, 0x7A, 0x00]) := by decide
theorem test_v7_read_reg : after ({ boot34 [0x21, 0x02] with x := 0x0400, inputs := [[0x6F, 0x6B]] })
    (fun s => (debugRead s 0x0400 3, s.ip)) = some ([0x6F, 0x6B, 0x00], 0x8002) := by decide
theorem test_v8_nop_opmod_34 : after (boot34 [0x22])
    (fun s => s.ip) = some (0x8001) := by decide
theorem test_v121_read_waits : after (boot [0x20, 0x00, 0x04])
    (fun s => (s.pending, s.ip, debugRead s 0x0400 2)) = some (some { target := 0x0400, len := 3 }, 0x8000, [0x00, 0x00]) := by decide

theorem test_v121_resume : (nextOf (andThen (step (boot [0x20, 0x00, 0x04])) (resumeWithInput [0x6F, 0x6B]))).map
    (fun s => (debugRead s 0x0400 3, s.ip, s.pending)) = some ([0x6F, 0x6B, 0x00], 0x8003, none) := by decide
/-- A waiting machine is stepped by the environment's answer, whatever it is. -/
theorem test_step_answers_read : step { boot [0x20, 0x00, 0x04] with pending := some { target := 0x0400, len := 3 } } =
    resumeWithInput (Config.inputText 1)
      { boot [0x20, 0x00, 0x04] with pending := some { target := 0x0400, len := 3 }, draws := 2 } := rfl

/-! ## Faults and refusals -/

/-- A fault leaves the state before the step, halted. -/
def halts (s : State) : State := { s with halted := true }

theorem test_v16_imm_r8 : faultOf (step (boot [0x01, 0x08, 0x00, 0x00])) =
    some (.invalidRegister 8 (halts (boot [0x01, 0x08, 0x00, 0x00]))) := by decide
theorem test_v25_ldb_r255 : faultOf (step (boot [0x04, 0xFF])) =
    some (.invalidRegister 255 (halts (boot [0x04, 0xFF]))) := by decide
theorem test_v39a_pop_r8 : faultOf (step (boot [0x08, 0x08])) =
    some (.invalidRegister 8 (halts (boot [0x08, 0x08]))) := by decide
theorem test_v39b_push_r9 : faultOf (step (boot [0x07, 0x09])) =
    some (.invalidRegister 9 (halts (boot [0x07, 0x09]))) := by decide
theorem test_v72_je_r8_not_taken : faultOf (step (boot [0x18, 0x08])) =
    some (.invalidRegister 8 (halts (boot [0x18, 0x08]))) := by decide
theorem test_v115_write_r9 : faultOf (step (boot [0x1F, 0x09])) =
    some (.invalidRegister 9 (halts (boot [0x1F, 0x09]))) := by decide
theorem test_read_r9 : faultOf (step (boot34 [0x21, 0x09])) =
    some (.invalidRegister 9 (halts (boot34 [0x21, 0x09]))) := by decide
theorem test_v101_imm_bank_16 : faultOf (step (boot [0x01, 0x06, 0x10, 0x00])) =
    some (.outOfRangeBank 16 (halts (boot [0x01, 0x06, 0x10, 0x00]))) := by decide
theorem test_v39_pop_bank_16 : faultOf (step ({ poke 0x0100 [0x10] (boot [0x08, 0x06]) with sp := 0x0100 })) =
    some (.outOfRangeBank 16 (halts ({ poke 0x0100 [0x10] (boot [0x08, 0x06]) with sp := 0x0100 }))) := by decide
theorem test_previous_bank_at_0 : faultOf (previousBank (stream [])) = some (.outOfRangeBank (-1) (halts (stream []))) := by
  decide
theorem test_halted_step : refusalOf (step (halts (boot []))) = some .halted := by decide
theorem test_resume_nothing_waits : refusalOf (resumeWithInput [] (boot [])) = some .notPending := by decide
theorem test_no_operation : refusalOf (step { boot [] with cfg := { Config.reference with table := { opmod := 1, ops := [] } } }) =
    some (.noOperation 0x00) := by decide

/-! ## Banks, reset, the debug read, the fetch interface -/

theorem test_e6_window : debugRead (boot [0x11, 0x22, 0x33, 0x44, 0x55, 0x66, 0x77, 0x88, 0x99, 0xAA]) 0x8009 2 =
    [0xAA, 0x00] := by decide
theorem test_e11_next_bank_wraps : (nextBank { boot [] with curBank := 15 }).curBank = 0 := by decide
theorem test_e11_previous_bank_wraps : (nextOf (previousBank (boot []))).map (·.curBank) = some 15 := by decide
theorem test_e16_seek : readByte (switchBank (stream [(32774, 0xEE)]) 1) 0x8006 = 0xEE := by decide
/-- Past the file's end a Streaming window holds free bytes of its refill (R70). -/
theorem test_short_fill : readByte (switchBank (stream []) 2) 0x8010 = Config.shortFill 1 0x0010 := by
  rw [readByte_window (by decide)]
  exact if_neg (by decide)
theorem test_debug_read_wraps : debugRead (poke 0x0000 [0x42] (boot [])) 0xFFFF 2 = [0x00, 0x42] := by decide
theorem test_fill_buffer :
    fillBufferFromMemory (boot [0x11, 0x22]) 0x8000 [1, 2, 3, 4] 2 1 = [1, 0x11, 0x22, 4] := by decide
theorem test_reset_ip : State.reset.ip = 0x8000 := by decide
theorem test_reset_clears_halted : (resetMachine (halts (boot []))).halted = false := by decide
theorem test_fetch_word : after (State.reset.withFetchWord 32 0x12340001) (fun s => (s.a, s.ip)) = some (0x1234, 0x8004) := by
  decide
theorem test_fetch_word_straddles : after ({ boot [] with ip := 0x7FFE }.withFetchWord 32 0x12340001) (fun s => s.a) =
    some 0x1234 := by decide


/-! ## Witnesses -/

/-- Every machine after reset with an admissible configuration meets the invariant. -/
theorem inv_resetOf {c : Config} (h : c.wf = true) : (State.resetOf c).Inv := by
  have h' := h
  simp only [Config.wf, Bool.and_eq_true, decide_eq_true_eq] at h'
  exact ⟨h, Memory.ofCells_wf _, rfl, Nat.lt_succ_self _, fun _ => h'.1.2, fun _ => h'.1.2, rfl⟩

/-- Two small machines the witnesses use: a Preloaded one and a Streaming one. -/
def pre : State := boot [0x01, 0x00, 0x34, 0x12]
def str : State := stream [(0, 0x02), (1, 0x06)]

theorem pre_inv : pre.Inv := inv_resetOf (by decide)
theorem str_inv : str.Inv := inv_resetOf (by decide)

/-- A machine that waits on a READ. -/
def waiting : State := { pre with pending := some { target := 0x0400, len := 3 } }

theorem waiting_inv : waiting.Inv := { pre_inv with pending := rfl }

/-- A store whose `n` bytes from `lo` on are all 0x01. -/
def ones : Nat → Nat → Memory
  | _, 0 => []
  | lo, n + 1 => (lo, 0x01) :: ones (lo + 1) n

theorem read_ones (lo n a : Nat) : (ones lo n).read a = if lo ≤ a ∧ a < lo + n then 0x01 else 0x00 := by
  induction n generalizing lo with
  | zero => rw [if_neg (by omega)]; rfl
  | succ n ih =>
    rw [ones, Memory.read, ih]
    by_cases h : lo = a
    · rw [if_pos h, if_pos (by omega)]
    · rw [if_neg h]
      by_cases h2 : lo + 1 ≤ a ∧ a < lo + 1 + n
      · rw [if_pos h2, if_pos (by omega)]
      · rw [if_neg h2, if_neg (by omega)]

/-- A machine with no zero byte in its address space. -/
def full : State :=
  { pre with ram := ones 0 0x8000, bankBuf := { cells := ones 0 0x8000, supplied := 0x8000, draw := 0 } }

theorem full_no_zero (a : Word) : readByte full a ≠ 0x00#8 := by
  have := a.isLt
  by_cases h : a.toNat < ramSize
  · rw [readByte_ram h]
    show (ones 0 0x8000).read _ ≠ _
    simp only [ramSize] at h
    rw [read_ones, if_pos (by omega)]
    decide
  · rw [readByte_window h]
    simp only [ramSize] at h ⊢
    rw [BankBuf.read, if_pos (show a.toNat - 0x8000 < full.bankBuf.supplied from by show _ < 0x8000; omega)]
    show (ones 0 0x8000).read _ ≠ _
    rw [read_ones, if_pos (by omega)]
    decide

theorem witness_DecodeOfEncodeIsIdentity : encodeWith referenceTable (.imm 255 0xFFFF) = some [0x01, 0xFF, 0xFF, 0xFF] := by
  decide
theorem witness_EncodeDefinedExactlyOnReachableOperations :
    (∃ bytes, encodeWith referenceTable (.readAddr 0) = some bytes) ∧ encode (.readReg 0) = none := ⟨⟨_, rfl⟩, by decide⟩
theorem witness_EveryOpcodeByteDecodes : referenceTable.admissible = true := by decide
theorem witness_DecodeLengthIsBytesConsumed :
    decode referenceTable (0x01 :: [0x00, 0x34, 0x12, 0x00]) = .ok (.imm 0 0x1234, [0x00]) := rfl
/-- One byte less than the instruction's length, and exactly as many. -/
theorem witness_TruncatedWindowIsOutOfRange : referenceTable.lookup 0x01 = some .imm ∧
    decode referenceTable [0x01, 0x00, 0x34] = .error .outOfRange ∧
    decode referenceTable [0x01, 0x00, 0x34, 0x12] = .ok (.imm 0 0x1234, []) := ⟨rfl, rfl, rfl⟩
theorem witness_AliasBytesSelectOneOperation : (0xFF : Byte).toNat % 33 = (0x18 : Byte).toNat % 33 := by decide
theorem witness_StepRunsDecodedInstruction : pre.halted = false ∧ pre.pending = none ∧
    decode pre.cfg.table [readByte pre pre.ip, readByte pre (pre.ip + 1#16), readByte pre (pre.ip + 2#16),
      readByte pre (pre.ip + 3#16)] = .ok (.imm 0 0x1234, []) := ⟨rfl, rfl, by decide +kernel⟩
theorem witness_HaltedEngineRefusesStepAndResume : (halts pre).halted = true := rfl
/-- IP in the window, and IP where the instruction straddles RAM and the window. -/
theorem witness_PlacedInstructionIsFetched : pre.Inv ∧ ({ pre with ip := 0x7FFE } : State).Inv :=
  ⟨pre_inv, ⟨pre_inv.config, pre_inv.ram, pre_inv.bank, pre_inv.fresh, pre_inv.bankNum, pre_inv.curBank, pre_inv.pending⟩⟩
theorem witness_StepKeepsInvariant : (pre.Inv ∧ ∃ t, step pre = .next t) ∧ (str.Inv ∧ ∃ t, step str = .next t) ∧
    waiting.Inv ∧ ∃ t, step waiting = .next t := ⟨⟨pre_inv, _, rfl⟩, ⟨str_inv, _, rfl⟩, waiting_inv, _, rfl⟩
theorem witness_EveryResetMeetsInvariant : pre.cfg.wf = true ∧ str.cfg.wf = true := by decide
theorem witness_StepNeverRefusesLiveMachine : (pre.Inv ∧ pre.halted = false) ∧ waiting.Inv ∧ waiting.halted = false ∧
    waiting.pending ≠ none := ⟨⟨pre_inv, rfl⟩, waiting_inv, rfl, nofun⟩
theorem witness_StepKeepsParametersAndTrace : (∃ t, step pre = .next t) ∧ ∃ t, step waiting = .next t := ⟨⟨_, rfl⟩, _, rfl⟩
theorem witness_FaultsArePreciseAndHalt : exec (.lda 8) pre = .fault (.invalidRegister 8 (halts pre)) ∧
    exec (.imm 6 16) pre = .fault (.outOfRangeBank 16 (halts pre)) := ⟨rfl, rfl⟩
/-- The first illegal index and the last, and the last legal one. -/
theorem witness_InvalidRegisterExactlyOnBadOperand : (∃ t, exec (.jeReg 8) pre = .fault (.invalidRegister 8 t)) ∧
    (∃ t, exec (.readReg 255) pre = .fault (.invalidRegister 255 t)) ∧ ∃ t, exec (.lda 7) pre = .next t :=
  ⟨⟨_, rfl⟩, ⟨_, rfl⟩, _, rfl⟩
/-- The first bank that does not exist and the last that does, and a Streaming machine that takes both. -/
theorem witness_OutOfRangeBankExactlyOnBadBank : (∃ t, exec (.imm 6 0x0110) pre = .fault (.outOfRangeBank 16 t)) ∧
    (∃ t, exec (.imm 6 0x010F) pre = .next t) ∧ ∃ t, exec (.imm 6 0x0110) str = .next t := ⟨⟨_, rfl⟩, ⟨_, rfl⟩, _, rfl⟩
theorem witness_StuckExactlyOnWriteWithoutZero : (∀ a : Word, readByte full a ≠ 0x00#8) ∧
    Reg.ofByte? 7 = some .Flags := ⟨full_no_zero, rfl⟩
theorem witness_ByteReadSelectsRamOrBank : (0x7FFF#16).toNat ≤ 0x7FFF ∧ 0x8000 ≤ (0x8000#16).toNat := by decide
theorem witness_ByteWriteStoresInRamOnly : pre.ram.wf = true ∧ (0x7FFF#16).toNat < 0x8000 ∧ 0x8000 ≤ (0x8000#16).toNat :=
  ⟨rfl, by decide, by decide⟩
/-- The first and the last address at which a word write stores nothing. -/
theorem witness_WordWriteStoresEachByteOnItsOwn : pre.ram.wf = true ∧
    (0x8000 ≤ (0x8000#16).toNat ∧ (0x8000#16).toNat ≤ 0xFFFE) ∧ 0x8000 ≤ (0xFFFE#16).toNat ∧ (0xFFFE#16).toNat ≤ 0xFFFE :=
  ⟨rfl, by decide, by decide⟩
/-- The stack address next to 0x7FFF; an address outside the two stored at 0x7FFF. -/
theorem witness_StackWordReadBack : pre.ram.wf = true ∧ (0x7FFE#15).toNat ≠ 0x7FFF ∧
    (0x0001#16).toNat ≠ (0x7FFF#15).toNat ∧ (0x0001#16).toNat ≠ ((0x7FFF#15).toNat + 1) % 0x8000 :=
  ⟨rfl, by decide, by decide, by decide⟩
theorem witness_NextIpCases : ({ pre with ip := 0x7FFF } : State).ip = 0x7FFF#16 ∧
    (({ pre with ip := 0xFFFF } : State).ip = 0xFFFF#16 ∧ pre.cfg.variant = .preloaded) ∧
    (({ str with ip := 0xFFFF } : State).ip = 0xFFFF#16 ∧ str.cfg.variant = .streaming) ∧
    pre.ip ≠ 0x7FFF#16 ∧ pre.ip ≠ 0xFFFF#16 := by decide
theorem witness_AdvanceIpIteratesNextIp : ({ pre with ip := 0x7FFD } : State).ip = 0x7FFD#16 ∧
    ({ str with ip := 0xFFFE } : State).ip = 0xFFFE#16 ∧ str.cfg.variant = .streaming := by decide
theorem witness_SequentialCodeStaysInRam : ({ pre with ip := 0x7FFF } : State).ip.toNat < 0x8000 := by decide
/-- The last address from which an advance by 4 stays in the window, and the first from which it does not. -/
theorem witness_AdvanceInsideRom :
    (0x8000 ≤ ({ pre with ip := 0xFFFB } : State).ip.toNat ∧ ({ pre with ip := 0xFFFB } : State).ip.toNat + 4 ≤ 0xFFFF) ∧
    (0x8000 ≤ ({ pre with ip := 0xFFFC } : State).ip.toNat ∧ 0xFFFF < ({ pre with ip := 0xFFFC } : State).ip.toNat + 4 ∧
      pre.cfg.variant = .preloaded) ∧
    0x8000 ≤ ({ str with ip := 0xFFFC } : State).ip.toNat ∧ 0xFFFF < ({ str with ip := 0xFFFC } : State).ip.toNat + 4 ∧
      str.cfg.variant = .streaming := by decide
/-- The first bank number that faults, the last that does not, and a Streaming machine. -/
theorem witness_BankNumWriteReloadsOrFaults :
    (pre.cfg.variant = .preloaded ∧ pre.cfg.nbanks ≤ (0xFF10#16).toNat % 256) ∧
    (0xFF0F#16).toNat % 256 < pre.cfg.nbanks ∧ str.cfg.variant = .streaming := by decide
theorem witness_BankWindowShowsRom : 0x7FFF < 0x8000 ∧ (pre.cfg.wf = true ∧ pre.cfg.variant = .preloaded ∧ 15 < pre.cfg.nbanks) ∧
    str.cfg.wf = true ∧ str.cfg.variant = .streaming := by decide
theorem witness_NextAndPreviousBank : (pre.cfg.variant = .preloaded ∧ 0 < pre.cfg.nbanks ∧ pre.curBank < pre.cfg.nbanks ∧
      ({ pre with curBank := 15 } : State).curBank < pre.cfg.nbanks) ∧
    (str.cfg.variant = .streaming ∧ str.curBank = 0) ∧ (0 < ({ str with curBank := 1 } : State).curBank ∧
      previousBank { str with curBank := 1 } = .next (switchBank { str with curBank := 1 } 0)) := by
  exact ⟨by decide, by decide, by decide, rfl⟩
theorem witness_NopAdvancesIpOnly : (0xE7 : Byte) ∈ ([0x00, 0x21, 0x42, 0x63, 0x84, 0xA5, 0xC6, 0xE7] : List Byte) := by decide

/-- A register that takes every value, and BankNum with the last bank it takes. -/
theorem allowed : writeAllowed pre .A 0xFFFF ∧ writeAllowed pre .BankNum 0x000F ∧ ¬writeAllowed pre .BankNum 0x0010 :=
  ⟨nofun, fun _ _ => by decide, fun h => absurd (h rfl rfl) (by decide)⟩

theorem witness_ImmLoadsTheNamedRegister : (Reg.ofByte? 0 = some .A ∧ writeAllowed pre .A 0xFFFF) ∧
    (Reg.ofByte? 6 = some .BankNum ∧ writeAllowed pre .BankNum 0x000F) ∧ ¬writeAllowed pre .BankNum 0x0010 ∧
    7 < (8 : Byte).toNat := ⟨⟨rfl, allowed.1⟩, ⟨rfl, allowed.2.1⟩, allowed.2.2, by decide⟩
theorem witness_MovCopiesSourceToDestination : writeAllowed pre .A (getReg pre .IP) ∧
    ¬writeAllowed { pre with x := 0x0010 } .BankNum (getReg { pre with x := 0x0010 } .X) :=
  ⟨nofun, fun h => absurd (h rfl rfl) (by decide)⟩
theorem witness_LoadsReadThroughTheRegister : Reg.ofByte? 7 = some .Flags ∧ 7 < (8 : Byte).toNat := ⟨rfl, by decide⟩
/-- Addresses at the end of RAM, and one whose second byte wraps to RAM[0]. -/
theorem witness_StoresWriteThroughTheRegister : Reg.ofByte? 2 = some .X ∧ pre.ram.wf = true ∧
    (getReg { pre with x := 0x7FFF } .X).toNat < 0x8000 ∧ (getReg { pre with x := 0xFFFF } .X + 1#16).toNat < 0x8000 ∧
    7 < (8 : Byte).toNat := ⟨rfl, rfl, by decide, by decide, by decide⟩
theorem witness_PushStoresAtSpAndKeepsIt : Reg.ofByte? 7 = some .Flags ∧ pre.ram.wf = true ∧ 7 < (8 : Byte).toNat :=
  ⟨rfl, rfl, by decide⟩
theorem witness_PopReadsAtSpAndKeepsIt : (Reg.ofByte? 6 = some .BankNum ∧ writeAllowed pre .BankNum (readStack pre pre.sp)) ∧
    ¬writeAllowed (poke 0x0000 [0x10] pre) .BankNum (readStack (poke 0x0000 [0x10] pre) (poke 0x0000 [0x10] pre).sp) ∧
    7 < (8 : Byte).toNat := ⟨⟨rfl, fun _ _ => by decide⟩, fun h => absurd (h rfl rfl) (by decide), by decide⟩
/-- The operands of V43 and V47; for DIV also a divisor of zero. -/
theorem witness_ArithmeticResults :
    (7 = readStack (stk 0x0104 7 3 pre) ((stk 0x0104 7 3 pre).sp - 4#15) ∧
      3 = readStack (stk 0x0104 7 3 pre) ((stk 0x0104 7 3 pre).sp - 2#15)) ∧
    7 = readStack (stk 0x0001 7 0 pre) ((stk 0x0001 7 0 pre).sp - 4#15) ∧
      0 = readStack (stk 0x0001 7 0 pre) ((stk 0x0001 7 0 pre).sp - 2#15) := by decide
theorem witness_LogicResults : 0xF0F0 = readStack (stk 0x0104 0xF0F0 0x3C3C pre) ((stk 0x0104 0xF0F0 0x3C3C pre).sp - 4#15) ∧
    0x3C3C = readStack (stk 0x0104 0xF0F0 0x3C3C pre) ((stk 0x0104 0xF0F0 0x3C3C pre).sp - 2#15) := by decide
theorem witness_MathOperationStackLayout : (stk 0x0001 7 3 pre).ram.wf = true ∧
    (0x0000#15 ≠ prevSP (prevSP (prevSP (prevSP (stk 0x0001 7 3 pre).sp))) ∧
      0x0000#15 ≠ prevSP (prevSP (prevSP (stk 0x0001 7 3 pre).sp))) := by decide
theorem witness_NotComplementsTheTopWord : 3 = readStack (stk 0x0001 7 3 pre) ((stk 0x0001 7 3 pre).sp - 2#15) ∧
    (stk 0x0001 7 3 pre).ram.wf = true := by decide
theorem witness_CompareSetsExactlyOneFlag :
    (1 = readStack (stk 0x0002 1 2 pre) ((stk 0x0002 1 2 pre).sp - 4#15) ∧
      2 = readStack (stk 0x0002 1 2 pre) ((stk 0x0002 1 2 pre).sp - 2#15)) ∧
    5 = readStack (stk 0x0002 5 5 pre) ((stk 0x0002 5 5 pre).sp - 4#15) ∧
      5 = readStack (stk 0x0002 5 5 pre) ((stk 0x0002 5 5 pre).sp - 2#15) := by decide
theorem witness_RegisterJumpsMatchOnePattern : Reg.ofByte? 7 = some .Flags ∧ 7 < (8 : Byte).toNat := ⟨rfl, by decide⟩
theorem witness_JumpsAfterCompare : ∃ t, exec .cmp (stk 0x0002 1 2 pre) = .next t := ⟨_, rfl⟩
theorem witness_PushThenPopCopiesARegister : pre.ram.wf = true ∧ Reg.ofByte? 7 = some .Flags ∧ Reg.ofByte? 3 = some .Y ∧
    ∃ t, exec (.push 7) pre = .next t := ⟨rfl, rfl, rfl, _, rfl⟩

/-- An empty text, a text that wraps past 0xFFFF, a memory without a zero byte, and an illegal index. -/
theorem witness_WriteEmitsTextUpToZero : textAt pre 0x0300 [] ∧
    textAt { poke 0x0000 [0x69] pre with bankBuf := { cells := [(0x7FFF, 0x68)], supplied := 0x8000, draw := 0 } } 0xFFFF
      [0x68, 0x69] ∧
    (Reg.ofByte? 2 = some .X ∧ getReg { pre with x := 0x0300 } .X = 0x0300) ∧ (∀ a : Word, readByte full a ≠ 0x00#8) ∧
    7 < (8 : Byte).toNat := by
  exact ⟨⟨by decide, by decide, nofun⟩, ⟨by decide, by decide, by decide⟩, ⟨rfl, rfl⟩, full_no_zero, by decide⟩
/-- A string that ends in the last byte of RAM, so that its zero byte is discarded. -/
theorem witness_ReadStoresTheInputText : ({ pre with inputs := [[0x61, 0x62], []] } : State).inputs = [0x61, 0x62] :: [[]] ∧
    (Reg.ofByte? 2 = some .X ∧ getReg { pre with x := 0x7FFE } .X = 0x7FFE) ∧ pre.ram.wf = true ∧
    (0x7FFE#16 + BitVec.ofNat 16 1).toNat < 0x8000 ∧ (0x7FFD#16 + BitVec.ofNat 16 2).toNat < 0x8000 :=
  ⟨rfl, ⟨rfl, rfl⟩, rfl, by decide, by decide⟩
theorem witness_ReadWaitsAndResumes : pre.halted = false ∧ pre.pending = none ∧ pre.inputs = [] ∧ Reg.ofByte? 7 = some .Flags ∧
    7 < (8 : Byte).toNat := ⟨rfl, rfl, rfl, rfl, by decide⟩
theorem witness_StepAnswersAWaitingRead :
    (let s : State := { pre with pending := some { target := 0x0400, len := 3 } };
      s.halted = false ∧ s.pending = some { target := 0x0400, len := 3 } ∧ s.inputs = []) ∧
    (let s : State := { pre with pending := some { target := 0x0400, len := 2 }, inputs := [[0x6F]] };
      s.halted = false ∧ s.pending = some { target := 0x0400, len := 2 } ∧ s.inputs = [0x6F] :: []) :=
  ⟨⟨rfl, rfl, rfl⟩, rfl, rfl, rfl⟩
theorem witness_SpChangesOnlyAsListed : (∃ t, exec (.imm 4 0x9ABC) pre = .next t ∧ t.sp ≠ pre.sp) ∧
    (∃ t, exec .add pre = .next t ∧ t.sp ≠ pre.sp) ∧ (∃ t, exec .cmp pre = .next t ∧ t.sp ≠ pre.sp) ∧
    (∃ t, exec (.push 0) pre = .next t) ∧ (∃ t, exec .not pre = .next t) ∧ ∃ t, exec (.pop 5) pre = .next t :=
  ⟨⟨_, rfl, by decide⟩, ⟨_, rfl, by decide⟩, ⟨_, rfl, by decide⟩, ⟨_, rfl⟩, ⟨_, rfl⟩, _, rfl⟩
theorem witness_FlagsChangeOnlyAsListed : (∃ t, exec .cmp pre = .next t ∧ t.flags ≠ pre.flags) ∧
    ∃ t, exec (.imm 7 0xFFFF) pre = .next t ∧ t.flags ≠ pre.flags := ⟨⟨_, rfl, by decide⟩, _, rfl, by decide⟩
theorem witness_RegisterFrame : ∃ t, exec (.lda 2) pre = .next t ∧ Reg.B ≠ .IP ∧ Reg.B ∉ destinations (.lda 2) :=
  ⟨_, rfl, by decide, by decide⟩
/-- The address after a word stored at the end of RAM: in the window, where no bank is mapped; and the first of RAM. -/
theorem witness_MemoryFrame : ∃ t, exec (.sta 2) { pre with x := 0x7FFE } = .next t ∧
    (0x8000#16 ∉ storedAddrs (.sta 2) { pre with x := 0x7FFE } ∧ mayMapBank (.sta 2) { pre with x := 0x7FFE } = false) ∧
    0x0000#16 ∉ storedAddrs (.sta 2) { pre with x := 0x7FFE } ∧ (0x0000#16).toNat < 0x8000 :=
  ⟨_, rfl, by decide, by decide⟩
/-- A Streaming machine at the last address from which a one-byte instruction does not pass 0xFFFF. -/
theorem witness_BankFrame : (∃ t, exec (.lda 2) pre = .next t ∧ mayMapBank (.lda 2) pre = false) ∧
    ∃ t, exec .nop { str with ip := 0xFFFE } = .next t ∧ mayMapBank .nop { str with ip := 0xFFFE } = false :=
  ⟨⟨_, rfl, by decide⟩, _, rfl, by decide⟩
theorem witness_ResetValues : pre.cfg.resetIP = 0x8000#16 ∧ pre.cfg.ramInit = [] ∧ pre = State.resetWith pre.cfg 0 [] ∧
    (0x7FFF#16).toNat < 0x8000 := ⟨rfl, rfl, rfl, by decide⟩

end Sys2Proof.Tests
end

section
/-! The mapped bank's frame: what leaves BANKBUF, CurBank, the counter of draws and the trace alone (20_memory.md
section 2, 10_state.md section 7). -/

namespace Sys2Proof.Machine

/-! ## An advance of IP that stays inside the address space -/

/-- Below 0xFFFF, `nextIP()` sets IP alone, to at most the next address: 0x7FFF wraps down (10_state.md R33). -/
theorem nextIP_of_ne_last {s : State} (h : s.ip ≠ 0xFFFF#16) :
    ∃ v, nextIP s = s.withIp v ∧ v.toNat ≤ s.ip.toNat + 1 := by
  by_cases h7 : s.ip = 0x7FFF#16
  · exact ⟨0x0000#16, by simp [nextIP, h7], by simp⟩
  · refine ⟨s.ip + 1#16, by simp [nextIP, h7, h], ?_⟩
    rw [BitVec.toNat_add]
    exact Nat.mod_le _ _

/-- An advance that does not pass 0xFFFF sets IP alone, under both ROM variants (R33, R34). -/
theorem advanceIP_of_le_last {n : Nat} {s : State} (h : s.ip.toNat + n ≤ 0xFFFF) :
    ∃ v, advanceIP n s = s.withIp v := by
  induction n generalizing s with
  | zero => exact ⟨s.ip, rfl⟩
  | succ n ih =>
    have hne : s.ip ≠ 0xFFFF#16 := by bv_omega
    obtain ⟨v, hv, hle⟩ := nextIP_of_ne_last hne
    obtain ⟨w, hw⟩ := ih (s := s.withIp v) (by rw [State.withIp_ip]; omega)
    exact ⟨w, by rw [advanceIP, hv, hw]; rfl⟩

/-! ## What an instruction's own effect keeps -/

/-- What the effect of an instruction that does not write BankNum keeps of the mapped bank and of what the advance
after it depends on. -/
structure BankKept (i : Instr) (s t : State) : Prop where
  bankBuf : t.bankBuf = s.bankBuf
  curBank : t.curBank = s.curBank
  draws : t.draws = s.draws
  cfg : t.cfg = s.cfg
  ip : .IP ∉ destinations i → t.ip = s.ip
  trace : (∀ a, i ≠ .writeAddr a) → (∀ r, i ≠ .writeReg r) → t.trace = s.trace

/-- A store changes RAM alone, so it keeps all of it. -/
theorem BankKept.withRam (i : Instr) (s : State) (m : Memory) : BankKept i s (s.withRam m) :=
  ⟨rfl, rfl, rfl, rfl, fun _ => rfl, fun _ _ => rfl⟩

/-- A write of the one destination register keeps the bank unless it is BankNum (10_state.md R25 to R28). -/
theorem BankKept.of_setReg {i : Instr} {s t : State} {d : Reg} {v : Word} (hd : destinations i = [d])
    (hb : .BankNum ∉ destinations i) (h : setReg s d v = .next t) : BankKept i s t := by
  cases d with
  | BankNum => exact absurd (by simp [hd]) hb
  | IP => cases h; exact ⟨rfl, rfl, rfl, rfl, fun hip => absurd (by simp [hd]) hip, fun _ _ => rfl⟩
  | A | B | X | Y | SP | Flags => cases h; exact ⟨rfl, rfl, rfl, rfl, fun _ => rfl, fun _ _ => rfl⟩

/-- An instruction without BankNum among its destinations keeps the bank, up to its advance. -/
theorem Body.bankKept {i : Instr} {s t : State} (h : Body s i t) (hb : .BankNum ∉ destinations i) :
    BankKept i s t := by
  cases h with
  | imm hg ht => exact .of_setReg (by simp [destinations, hg]) hb ht
  | mov ht => exact .of_setReg rfl hb ht
  | pop hg ht => exact .of_setReg (by simp [destinations, hg]) hb ht
  | @sta r g => obtain ⟨m, hm⟩ := writeWord_eq s (getReg s g) s.a; exact hm ▸ .withRam _ s m
  | @stb r g => obtain ⟨m, hm⟩ := writeWord_eq s (getReg s g) s.b; exact hm ▸ .withRam _ s m
  | @push r g => obtain ⟨m, hm⟩ := writeStack_eq s s.sp (getReg s g); exact hm ▸ .withRam _ s m
  | @math _ v =>
    obtain ⟨m, hm⟩ := writeStack_eq s (prevSP4 s.sp) v
    rw [hm]
    exact ⟨rfl, rfl, rfl, rfl, fun _ => rfl, fun _ _ => rfl⟩
  | @not v =>
    obtain ⟨m, hm⟩ := writeStack_eq s (prevSP2 s.sp) v
    rw [hm]
    exact ⟨rfl, rfl, rfl, rfl, fun _ => rfl, fun _ _ => rfl⟩
  | @read _ a text later =>
    obtain ⟨m, hm⟩ := storeText_eq { s with inputs := later } a text
    rw [hm]
    exact ⟨rfl, rfl, rfl, rfl, fun _ => rfl, fun _ _ => rfl⟩
  | writeAddr => exact ⟨rfl, rfl, rfl, rfl, fun _ => rfl, fun ha _ => absurd rfl (ha _)⟩
  | writeReg => exact ⟨rfl, rfl, rfl, rfl, fun _ => rfl, fun _ hr => absurd rfl (hr _)⟩
  | nop | lda | ldb | cmp | jump => exact ⟨rfl, rfl, rfl, rfl, fun _ => rfl, fun _ _ => rfl⟩

/-! ## The statement -/

/-- When an instruction can map no bank. -/
theorem mayMapBank_eq_false {i : Instr} {s : State} : mayMapBank i s = false ↔
    .BankNum ∉ destinations i ∧
      (s.cfg.variant = .preloaded ∨ .IP ∉ destinations i ∧ s.ip.toNat + i.length ≤ 0xFFFF) := by
  cases hv : s.cfg.variant <;> simp [mayMapBank, hv]

/-- An instruction that can map no bank ends its effect with an advance that sets IP alone. -/
theorem Body.advanceIP_of_not_mayMapBank {i : Instr} {s t : State} (h : Body s i t) (hm : mayMapBank i s = false) :
    ∃ v, advanceIP i.length t = t.withIp v := by
  obtain ⟨hb, hv | ⟨hip, hle⟩⟩ := mayMapBank_eq_false.mp hm
  · exact advanceIP_preloaded _ ((h.bankKept hb).cfg ▸ hv)
  · exact advanceIP_of_le_last ((h.bankKept hb).ip hip ▸ hle)

/-- Settles O59: by the forms of a next state; the effect keeps the bank, and the advance then sets IP alone. -/
theorem bankFrame : Obligations.BankFrame := by
  intro i s s' h hm
  obtain ⟨t, ht, rfl⟩ | ⟨-, t, rfl⟩ | ⟨t, -, -, rfl⟩ := exec_next_cases h
  · have hk := ht.bankKept (mayMapBank_eq_false.mp hm).1
    obtain ⟨v, hv⟩ := ht.advanceIP_of_not_mayMapBank hm
    rw [hv]
    exact ⟨hk.bankBuf, hk.curBank, hk.draws, hk.trace⟩
  · exact ⟨rfl, rfl, rfl, fun _ _ => rfl⟩
  · exact ⟨rfl, rfl, rfl, fun _ _ => rfl⟩

end Sys2Proof.Machine
end

section
/-! The registers, one at a time: the stack pointer's circle, the IP incrementer, the register file and the values
after reset (10_state.md sections 2 to 4 and 9). -/

namespace Sys2Proof.Machine

/-! ## The stack pointer's circle -/

theorem nextSP_toNat (p : StackPtr) : (nextSP p).toNat = (p.toNat + 1) % 0x8000 := BitVec.toNat_add p 1#15

theorem prevSP_toNat (p : StackPtr) : (prevSP p).toNat = if p.toNat = 0 then 0x7FFF else p.toNat - 1 := by
  unfold prevSP
  split <;> bv_omega

@[simp] theorem nextSP_prevSP (p : StackPtr) : nextSP (prevSP p) = p := BitVec.sub_add_cancel p 1#15

@[simp] theorem prevSP_nextSP (p : StackPtr) : prevSP (nextSP p) = p := BitVec.add_sub_cancel p 1#15

theorem stackAddr_toNat (p : StackPtr) : (stackAddr p).toNat = p.toNat :=
  BitVec.toNat_setWidth_of_le (by decide)

/-- Settles O26. -/
theorem stackPointerCircle : Obligations.StackPointerCircle := fun p =>
  ⟨nextSP_toNat p, prevSP_toNat p, nextSP_prevSP p, prevSP_nextSP p, stackAddr_toNat p, p.isLt⟩

/-! ## The instruction pointer -/

/-- At the last address of RAM, `nextIP()` goes to the first (10_state.md R33). -/
theorem nextIP_at_ramEnd {s : State} (h : s.ip = 0x7FFF#16) : nextIP s = s.withIp 0x0000#16 := if_pos h

/-- At the last address, a Preloaded machine goes to address 0 and maps no bank (R33). -/
theorem nextIP_at_last_preloaded {s : State} (h : s.ip = 0xFFFF#16) (hv : s.cfg.variant = .preloaded) :
    nextIP s = s.withIp 0x0000#16 := by simp [nextIP, h, hv]

theorem nextBank_streaming {s : State} (hv : s.cfg.variant = .streaming) :
    nextBank s = switchBank s (s.curBank + 1) := by simp [nextBank, hv]

/-- At the last address, a Streaming machine goes to the start of the next bank (R33). -/
theorem nextIP_at_last_streaming {s : State} (h : s.ip = 0xFFFF#16) (hv : s.cfg.variant = .streaming) :
    nextIP s = (switchBank s (s.curBank + 1)).withIp 0x8000#16 := by simp [nextIP, h, hv, nextBank_streaming]

/-- At every other address, `nextIP()` adds one to IP (R33). -/
theorem nextIP_inside {s : State} (h7 : s.ip ≠ 0x7FFF#16) (hF : s.ip ≠ 0xFFFF#16) :
    nextIP s = s.withIp (s.ip + 1#16) := by simp [nextIP, h7, hF]

/-- Settles O27: one lemma per case of R33. -/
theorem nextIpCases : Obligations.NextIpCases := by
  intro s
  refine ⟨nextIP_at_ramEnd, nextIP_at_last_preloaded, fun hF hv => ?_, fun h7 hF => ?_⟩
  · rw [nextIP_at_last_streaming hF hv, nextBank_streaming hv]
    exact ⟨rfl, rfl, rfl⟩
  · have hadd : s.ip + 1#16 = BitVec.ofNat 16 (s.ip.toNat + 1) := by bv_omega
    rw [nextIP_inside h7 hF, hadd]
    rfl

theorem advanceIP_eq_iterate (n : Nat) (s : State) : advanceIP n s = nextIP^[n] s := by
  induction n generalizing s with
  | zero => rfl
  | succ n ih => exact ih (nextIP s)

/-- From 0x7FFD, two steps to the last address of RAM, the wrap to 0, and one step more (R34). -/
theorem advanceIP_four_of_7FFD {s : State} (h : s.ip = 0x7FFD#16) : advanceIP 4 s = s.withIp 0x0001#16 :=
  calc advanceIP 4 s
    _ = advanceIP 2 (advanceIP 2 s) := rfl
    _ = advanceIP 2 (s.withIp 0x7FFF#16) := by rw [advanceIP_straight 2 s (by simp [h]), h]; rfl
    _ = advanceIP 1 (s.withIp 0x0000#16) := congrArg (advanceIP 1) (nextIP_at_ramEnd rfl)
    _ = s.withIp 0x0001#16 := advanceIP_straight 1 (s.withIp 0x0000#16) (by simp)

/-- From 0xFFFE of a Streaming machine, one step to the last address, the next bank, and one step more (R34). -/
theorem advanceIP_three_of_FFFE {s : State} (h : s.ip = 0xFFFE#16) (hv : s.cfg.variant = .streaming) :
    advanceIP 3 s = (switchBank s (s.curBank + 1)).withIp 0x8001#16 :=
  calc advanceIP 3 s
    _ = advanceIP 2 (advanceIP 1 s) := rfl
    _ = advanceIP 2 (s.withIp 0xFFFF#16) := by rw [advanceIP_straight 1 s (by simp [h]), h]; rfl
    _ = advanceIP 1 ((switchBank s (s.curBank + 1)).withIp 0x8000#16) :=
      congrArg (advanceIP 1) (nextIP_at_last_streaming rfl hv)
    _ = (switchBank s (s.curBank + 1)).withIp 0x8001#16 :=
      advanceIP_straight 1 ((switchBank s (s.curBank + 1)).withIp 0x8000#16) (by simp)

/-- Settles O28: by induction on the count, and the spec's two examples step by step. -/
theorem advanceIpIteratesNextIp : Obligations.AdvanceIpIteratesNextIp := by
  intro s
  refine ⟨fun n => advanceIP_eq_iterate n s, fun h => ?_, fun h hv => ?_⟩
  · rw [advanceIP_four_of_7FFD h, State.withIp_ip]
  · rw [advanceIP_three_of_FFFE h hv]
    exact ⟨rfl, rfl⟩

/-! ## The register file -/

/-- What SP keeps of a word (R26). -/
theorem setWidth_stackPtr_eq_ofNat (v : Word) : v.setWidth 15 = BitVec.ofNat 15 (v.toNat % 0x8000) := by
  apply BitVec.eq_of_toNat_eq
  simp

theorem loByte_toNat (v : Word) : (loByte v).toNat = v.toNat % 256 := BitVec.toNat_setWidth 8 v

/-- Settles O31: a read zero-extends, and a write keeps what the register has room for. -/
theorem registerReadsAndPlainWrites : Obligations.RegisterReadsAndPlainWrites := by
  intro s v
  have zeroExtend : ∀ f : Byte, (f.setWidth 16).toNat = f.toNat := fun f => BitVec.toNat_setWidth_of_le (by decide)
  refine ⟨⟨rfl, rfl, rfl, rfl, rfl, stackAddr_toNat s.sp, zeroExtend s.bankNum, zeroExtend s.flags⟩,
    rfl, rfl, rfl, rfl, rfl, ?_, ?_⟩
  · rw [← setWidth_stackPtr_eq_ofNat]
    rfl
  · rw [← loByte_eq_ofNat]
    rfl

/-- A Preloaded machine refuses a bank number out of range, and only halts (R27). -/
theorem setReg_bankNum_outOfRange {s : State} {v : Word} (hv : s.cfg.variant = .preloaded)
    (hb : s.cfg.nbanks ≤ v.toNat % 256) :
    setReg s .BankNum v = .fault (.outOfRangeBank (v.toNat % 256 : Nat) (s.withHalted true)) := by
  rw [← loByte_toNat] at hb ⊢
  obtain ⟨hd, -⟩ | ⟨-, hlt, -⟩ | ⟨-, -, -, he⟩ := setReg_cases s .BankNum v
  · exact absurd rfl hd
  · exact absurd (hlt hv) (by omega)
  · exact he

/-- Any other write to BankNum stores the low byte and maps that bank (R27, 20_memory.md R68). -/
theorem setReg_bankNum_inRange {s : State} {v : Word}
    (hb : s.cfg.variant = .streaming ∨ v.toNat % 256 < s.cfg.nbanks) :
    setReg s .BankNum v = .next (switchBank (s.withBankNum (loByte v)) (v.toNat % 256)) := by
  rw [← loByte_toNat] at hb ⊢
  obtain ⟨hd, -⟩ | ⟨-, -, he⟩ | ⟨-, hv, hge, -⟩ := setReg_cases s .BankNum v
  · exact absurd rfl hd
  · exact he
  · obtain hs | hlt := hb
    · exact absurd (hv.symm.trans hs) (by decide)
    · omega

/-- Settles O32: the two answers of a write to BankNum. -/
theorem bankNumWriteReloadsOrFaults : Obligations.BankNumWriteReloadsOrFaults := fun _ v =>
  ⟨setReg_bankNum_outOfRange, fun hb => ⟨_, setReg_bankNum_inRange hb, loByte_toNat v, rfl, rfl, rfl, rfl⟩⟩

/-! ## Reset -/

/-- RAM that nothing was stored in reads as zero (10_state.md R44). -/
theorem readByte_of_ram_nil {s : State} {addr : Word} (hr : s.ram = []) (ha : addr.toNat < ramSize) :
    readByte s addr = 0x00#8 := by
  rw [readByte_ram ha, hr, Memory.read_nil, unlistedByte]

theorem resetWith_ram_of_ramInit_nil {c : Config} (h : c.ramInit = []) (draw : Nat) (inputs : List (List Byte)) :
    (State.resetWith c draw inputs).ram = [] :=
  congrArg Memory.ofCells h

/-- Settles O60: each field of the reset state, and RAM read byte by byte. -/
theorem resetValues : Obligations.ResetValues := by
  rintro c draw inputs s hip hram rfl
  refine ⟨rfl, rfl, rfl, rfl, rfl, hip, rfl, rfl, fun addr ha => ?_, rfl, rfl, rfl, rfl, rfl, ?_⟩
  · exact readByte_of_ram_nil (resetWith_ram_of_ramInit_nil hram draw inputs) ha
  · rintro u rfl
    rfl

end Sys2Proof.Machine
end

section
/-! Which instructions change SP, and to what (10_state.md section 3). -/

namespace Sys2Proof.Machine

/-- Index 4 is SP (10_state.md R22). -/
theorem Reg.ofByte?_eq_SP {r : Byte} : Reg.ofByte? r = some .SP ↔ r = 4#8 := by
  revert r
  decide

/-- The instructions that have SP among their destinations (R32). -/
theorem SP_mem_destinations {i : Instr} : .SP ∈ destinations i ↔
    (∃ v, i = .imm 4#8 v) ∨ (∃ src, i = .mov .SP src) ∨ i = .pop 4#8 ∨ i = .cmp ∨ isMath i := by
  cases i with
  | imm r v => simp [destinations, isMath, Reg.ofByte?_eq_SP]
  | mov dst src => simp [destinations, isMath, eq_comm]
  | pop r => simp [destinations, isMath, Reg.ofByte?_eq_SP]
  | _ => simp [destinations, isMath]

/-- A write of another register leaves SP alone (R25 to R28). -/
theorem setReg_sp_of_ne {s t : State} {d : Reg} {v : Word} (hd : d ≠ .SP) (h : setReg s d v = .next t) :
    t.sp = s.sp := by
  cases d with
  | SP => exact absurd rfl hd
  | A | B | X | Y | IP | Flags => cases h; rfl
  | BankNum =>
    obtain ⟨hb, -⟩ | ⟨-, -, he⟩ | ⟨-, -, -, he⟩ := setReg_cases s .BankNum v
    · exact absurd rfl hb
    · cases he.symm.trans h; rfl
    · cases he.symm.trans h

/-- The effect of an instruction that does not have SP among its destinations leaves it alone; NOT's stores SP's own
value. -/
theorem Body.sp_of_not_mem {i : Instr} {s t : State} (h : Body s i t) (hi : .SP ∉ destinations i) : t.sp = s.sp := by
  cases h with
  | imm hg ht => exact setReg_sp_of_ne (by rintro rfl; simp [destinations, hg] at hi) ht
  | mov ht => exact setReg_sp_of_ne (by rintro rfl; simp [destinations] at hi) ht
  | pop hg ht => exact setReg_sp_of_ne (by rintro rfl; simp [destinations, hg] at hi) ht
  | math hm => exact absurd (SP_mem_destinations.mpr (by simp [hm])) hi
  | cmp => simp [destinations] at hi
  | @sta r g => obtain ⟨m, hm⟩ := writeWord_eq s (getReg s g) s.a; rw [hm, State.withRam_sp]
  | @stb r g => obtain ⟨m, hm⟩ := writeWord_eq s (getReg s g) s.b; rw [hm, State.withRam_sp]
  | @push r g => obtain ⟨m, hm⟩ := writeStack_eq s s.sp (getReg s g); rw [hm, State.withRam_sp]
  | @read _ a text later =>
    obtain ⟨m, hm⟩ := storeText_eq { s with inputs := later } a text
    rw [hm, State.withRam_sp]
  | nop | lda | ldb | not | jump | writeAddr | writeReg => rfl

/-- An instruction that does not have SP among its destinations leaves it alone (R32). -/
theorem exec_sp_of_not_mem {i : Instr} {s s' : State} (h : exec i s = .next s') (hi : .SP ∉ destinations i) :
    s'.sp = s.sp := by
  obtain ⟨t, ht, rfl⟩ | ⟨-, t, rfl⟩ | ⟨t, -, -, rfl⟩ := exec_next_cases h
  · rw [(advanceIP_kept i.length t).sp, ht.sp_of_not_mem hi]
  · rfl
  · rfl

/-- A MathOperation leaves SP two below where it was (R32, 42_alu.md R160). -/
theorem exec_sp_of_isMath {i : Instr} {s s' : State} (hi : isMath i) (h : exec i s = .next s') :
    s'.sp = prevSP2 s.sp := by
  have math : ∀ {f}, completed 1 (mathOperation f s) = .next s' → s'.sp = prevSP2 s.sp := by
    intro f he
    cases he
    rw [(advanceIP_kept 1 _).sp, State.withSp_sp, nextSP_nextSP_prevSP4]
  obtain rfl | rfl | rfl | rfl | rfl | rfl | rfl := hi <;> exact math h

/-- CMP leaves SP four below where it was (R32, R169). -/
theorem exec_cmp_sp {s s' : State} (h : exec .cmp s = .next s') : s'.sp = prevSP4 s.sp := by
  cases h
  rw [(advanceIP_kept 1 _).sp, State.withSp_sp]

/-- Settles O55: only an instruction with SP among its destinations changes it, and the MathOperations and CMP say to
what. -/
theorem spChangesOnlyAsListed : Obligations.SpChangesOnlyAsListed := by
  intro i s s' h
  refine ⟨fun hne => ?_, fun hi => exec_sp_of_isMath hi h, ?_, fun hi => ?_⟩
  · have hmem : .SP ∈ destinations i := by
      by_contra hi
      exact hne (exec_sp_of_not_mem h hi)
    exact SP_mem_destinations.mp hmem
  · rintro rfl
    exact exec_cmp_sp h
  · refine exec_sp_of_not_mem h ?_
    rw [SP_mem_destinations]
    obtain ⟨r, rfl⟩ | rfl | ⟨r, hr, rfl⟩ := hi
    · simp [isMath]
    · simp [isMath]
    · simp [isMath, hr]

end Sys2Proof.Machine
end

section
/-! Memory and banks: bytes and words in RAM and the ROM window, stack words, and the neighbouring banks (20_memory.md
sections 1 to 3). -/

namespace Sys2Proof.Machine

/-! ## Bytes -/

/-- Settles O21: one lemma per side of 0x8000. -/
theorem byteReadSelectsRamOrBank : Obligations.ByteReadSelectsRamOrBank := fun _ _ =>
  ⟨fun h => readByte_ram (Nat.lt_succ_of_le h), fun h => readByte_window (Nat.not_lt.mpr h)⟩

/-- Reading after a byte write (20_memory.md R61, R62): `v` at a written RAM address, the old byte everywhere else. -/
theorem readByte_writeByte {s : State} (a b : Word) (v : Byte) (hm : s.ram.wf = true) :
    readByte (writeByte s a v) b = if b = a ∧ a.toNat < ramSize then v else readByte s b := by
  by_cases ha : a.toNat < ramSize
  · by_cases hb : b = a
    · subst hb
      rw [if_pos ⟨rfl, ha⟩, readByte_writeByte_same hm ha]
    · rw [if_neg fun h => hb h.1, readByte_writeByte_other hb]
  · rw [if_neg fun h => ha h.2, writeByte_window ha]

/-- A state that differs at most in RAM, with RAM in form, is the old state with a store in form. -/
theorem exists_wf_ram {s t : State} (h : ∃ m, t = s.withRam m) (hm : t.ram.wf = true) :
    ∃ m : Memory, m.wf = true ∧ t = { s with ram := m } := by
  obtain ⟨m, rfl⟩ := h
  exact ⟨m, hm, rfl⟩

/-- Settles O22. -/
theorem byteWriteStoresInRamOnly : Obligations.ByteWriteStoresInRamOnly := fun s a b v hm =>
  ⟨readByte_writeByte a b v hm, fun ha => writeByte_window (Nat.not_lt.mpr ha),
    exists_wf_ram (writeByte_eq s a v) (writeByte_ram_wf a v hm)⟩

/-! ## Words -/

/-- The address of a word's second byte (R64, D15). -/
theorem succ_eq_ofNat (a : Word) : a + 1#16 = BitVec.ofNat 16 ((a.toNat + 1) % 65536) := by
  apply BitVec.eq_of_toNat_eq
  simp

/-- Settles O23: the two edges are the general rule with each byte read on its own side of 0x8000. -/
theorem wordReadIsLittleEndian : Obligations.WordReadIsLittleEndian := by
  intro s
  refine ⟨fun a => ?_, ?_, ?_⟩
  · rw [littleEndian_eq_wordOf, ← succ_eq_ofNat, readWord]
  · have lo : readByte s 0x7FFF#16 = Memory.read s.ram 0x7FFF := readByte_ram (by decide)
    have hi : readByte s (0x7FFF#16 + 1#16) = BankBuf.read s.bankBuf 0 := readByte_window (by decide)
    rw [littleEndian_eq_wordOf, readWord, lo, hi]
  · have lo : readByte s 0xFFFF#16 = BankBuf.read s.bankBuf 0x7FFF := readByte_window (by decide)
    have hi : readByte s (0xFFFF#16 + 1#16) = Memory.read s.ram 0 := readByte_ram (by decide)
    rw [littleEndian_eq_wordOf, readWord, lo, hi]

/-- Reading after a word write (R65): each byte where its own address lies in RAM, the old byte everywhere else. -/
theorem readByte_writeWord {s : State} (a b v : Word) (hm : s.ram.wf = true) :
    readByte (writeWord s a v) b =
      if b = a ∧ b.toNat < ramSize then loByte v
      else if b = a + 1#16 ∧ b.toNat < ramSize then hiByte v
      else readByte s b := by
  rw [writeWord, readByte_writeByte _ _ _ (writeByte_ram_wf _ _ hm), readByte_writeByte _ _ _ hm]
  by_cases hlo : b = a
  · subst hlo
    simp [(succ_ne b).symm]
  · by_cases hhi : b = a + 1#16
    · subst hhi
      simp
    · simp [hlo, hhi]

/-- A word write with both bytes in the ROM window is discarded (R65). -/
theorem writeWord_window {s : State} {a v : Word} (ha : ramSize ≤ a.toNat) (hl : a.toNat ≤ 0xFFFE) :
    writeWord s a v = s := by
  have hi : ¬(a + 1#16).toNat < ramSize := by
    simp only [ramSize] at *
    bv_omega
  rw [writeWord, writeByte_window (Nat.not_lt.mpr ha), writeByte_window hi]

/-- Settles O24. -/
theorem wordWriteStoresEachByteOnItsOwn : Obligations.WordWriteStoresEachByteOnItsOwn := by
  intro s a b v hm
  refine ⟨?_, writeWord_window, exists_wf_ram (writeWord_eq s a v) (writeWord_ram_wf a v hm)⟩
  rw [← succ_eq_ofNat, ← loByte_eq_ofNat, ← hiByte_eq_ofNat]
  exact readByte_writeWord a b v hm

/-! ## Stack words -/

/-- A byte at a stack address is RAM's (10_state.md R31). -/
theorem readByte_stackAddr (s : State) (p : StackPtr) : readByte s (stackAddr p) = Memory.read s.ram p.toNat := by
  rw [readByte_ram (stackAddr_lt p), stackAddr_toNat]

/-- Away from the last address of RAM, the circular successor is the next memory address. -/
theorem stackAddr_nextSP {p : StackPtr} (h : p.toNat ≠ 0x7FFF) : stackAddr (nextSP p) = stackAddr p + 1#16 := by
  have hp := p.isLt
  apply BitVec.eq_of_toNat_eq
  rw [stackAddr_toNat, nextSP_toNat, BitVec.toNat_add, stackAddr_toNat, BitVec.toNat_ofNat]
  omega

/-- The two bytes of a stack word lie at different addresses. -/
theorem stackAddr_nextSP_ne (p : StackPtr) : stackAddr (nextSP p) ≠ stackAddr p := fun h =>
  nextSP_ne p (stackAddr_injective h)

theorem readByte_writeStack_lo {s : State} (p : StackPtr) (v : Word) (hm : s.ram.wf = true) :
    readByte (writeStack s p v) (stackAddr p) = loByte v := by
  rw [writeStack, readByte_writeByte_other (stackAddr_nextSP_ne p).symm, readByte_writeByte_same hm (stackAddr_lt p)]

theorem readByte_writeStack_hi {s : State} (p : StackPtr) (v : Word) (hm : s.ram.wf = true) :
    readByte (writeStack s p v) (stackAddr (nextSP p)) = hiByte v :=
  readByte_writeByte_same (writeByte_ram_wf _ _ hm) (stackAddr_lt _)

theorem readByte_writeStack_other {s : State} {p : StackPtr} {v b : Word} (hlo : b ≠ stackAddr p)
    (hhi : b ≠ stackAddr (nextSP p)) : readByte (writeStack s p v) b = readByte s b := by
  rw [writeStack, readByte_writeByte_other hhi, readByte_writeByte_other hlo]

/-- A stack word is read back (20_memory.md R74, R75). -/
theorem readStack_writeStack {s : State} (p : StackPtr) (v : Word) (hm : s.ram.wf = true) :
    readStack (writeStack s p v) p = v := by
  rw [readStack, readByte_writeStack_lo p v hm, readByte_writeStack_hi p v hm, wordOf_loByte_hiByte]

/-- Settles O25: a stack word's two bytes are RAM's at `p` and at its circular successor. -/
theorem stackWordReadBack : Obligations.StackWordReadBack := by
  intro s p v
  rw [← nextSP_toNat]
  refine ⟨?_, fun hp => ?_, fun hm => ⟨readStack_writeStack p v hm, ?_, ?_, fun b hlo hhi => ?_, ?_⟩⟩
  · rw [littleEndian_eq_wordOf, readStack, readByte_stackAddr, readByte_stackAddr]
  · rw [readStack, readWord, stackAddr_nextSP hp]
  · rw [← readByte_stackAddr, readByte_writeStack_lo p v hm, loByte_eq_ofNat]
  · rw [← readByte_stackAddr, readByte_writeStack_hi p v hm, hiByte_eq_ofNat]
  · refine readByte_writeStack_other ?_ ?_
    · rintro rfl
      exact hlo (stackAddr_toNat p)
    · rintro rfl
      exact hhi (stackAddr_toNat (nextSP p))
  · exact exists_wf_ram (writeStack_eq s p v) (writeStack_ram_wf p v hm)

/-! ## The neighbouring banks -/

theorem nextBank_preloaded {s : State} (hv : s.cfg.variant = .preloaded) :
    nextBank s = switchBank s ((s.curBank + 1) % s.cfg.nbanks) := by simp [nextBank, hv]

/-- `nextBank()` is a bank switch under both variants (R71, R72). -/
theorem nextBank_eq_switchBank (s : State) : ∃ n, nextBank s = switchBank s n := by
  cases hv : s.cfg.variant with
  | preloaded => exact ⟨_, nextBank_preloaded hv⟩
  | streaming => exact ⟨_, nextBank_streaming hv⟩

/-- Before bank 0 comes the last bank (R71). -/
theorem add_pred_mod {k n : Nat} (h : k < n) : (k + n - 1) % n = if k = 0 then n - 1 else k - 1 := by
  split
  · subst k
    rw [Nat.zero_add]
    exact Nat.mod_eq_of_lt (by omega)
  · rw [show k + n - 1 = k - 1 + n by omega, Nat.add_mod_right]
    exact Nat.mod_eq_of_lt (by omega)

theorem previousBank_preloaded {s : State} (hv : s.cfg.variant = .preloaded) :
    previousBank s = .next (switchBank s ((s.curBank + s.cfg.nbanks - 1) % s.cfg.nbanks)) := by
  simp [previousBank, hv]

/-- A Streaming machine has no bank before bank 0 (R73). -/
theorem previousBank_streaming_zero {s : State} (hv : s.cfg.variant = .streaming) (h : s.curBank = 0) :
    previousBank s = .fault (.outOfRangeBank (-1) (s.withHalted true)) := by
  simp [previousBank, hv, h, raiseOutOfRangeBank, haltedBy]

theorem previousBank_streaming_pos {s : State} (hv : s.cfg.variant = .streaming) (h : 0 < s.curBank) :
    previousBank s = .next (switchBank s (s.curBank - 1)) := by
  obtain ⟨n, hn⟩ := Nat.exists_eq_succ_of_ne_zero h.ne'
  simp [previousBank, hv, hn]

/-- A `previousBank()` that answers a next state is a bank switch (R71, R73). -/
theorem previousBank_next {s t : State} (h : previousBank s = .next t) : ∃ n, t = switchBank s n := by
  cases hv : s.cfg.variant with
  | preloaded =>
    cases (previousBank_preloaded hv).symm.trans h
    exact ⟨_, rfl⟩
  | streaming =>
    obtain h0 | hpos := Nat.eq_zero_or_pos s.curBank
    · cases (previousBank_streaming_zero hv h0).symm.trans h
    · cases (previousBank_streaming_pos hv hpos).symm.trans h
      exact ⟨_, rfl⟩

/-- Settles O34: one lemma per variant and side; a bank switch keeps BankNum. -/
theorem nextAndPreviousBank : Obligations.NextAndPreviousBank := by
  intro s
  refine ⟨fun hv _ => ⟨nextBank_preloaded hv, fun hlt => ?_⟩,
    fun hv => ⟨nextBank_streaming hv, previousBank_streaming_pos hv, previousBank_streaming_zero hv⟩, ?_, fun t h => ?_⟩
  · rw [previousBank_preloaded hv, add_pred_mod hlt]
  · obtain ⟨n, hn⟩ := nextBank_eq_switchBank s
    rw [hn, switchBank_bankNum]
  · obtain ⟨n, rfl⟩ := previousBank_next h
    exact switchBank_bankNum s n

end Sys2Proof.Machine
end

section
/-! The fields of an encoding: the opcode byte's remainder modulo OPMOD, and the two registers of a RegisterPair byte
(30_encoding.md sections 1 and 3). -/

namespace Sys2Proof

/-! ## The opcode byte -/

/-- Under every decode table, opcode bytes with the same remainder modulo OPMOD are aliases of each other (R107). -/
theorem decode_congr_mod {t : DecodeTable} {b b' : Byte} (h : b.toNat % t.opmod = b'.toNat % t.opmod)
    (rest : List Byte) : decode t (b :: rest) = decode t (b' :: rest) := by
  simp only [decode, DecodeTable.lookup, h]

/-- Under every decode table, an index below OPMOD that is a byte is selected by that byte (R107, R108). -/
theorem lookup_ofNat {t : DecodeTable} {k : Nat} (hk : k < t.opmod) (hb : k < 256) :
    t.lookup (BitVec.ofNat 8 k) = t.ops[k]? := by
  rw [DecodeTable.lookup, BitVec.toNat_ofNat, Nat.mod_eq_of_lt hb, Nat.mod_eq_of_lt hk]

/-- How many of the 256 opcode bytes have an index as their remainder modulo OPMOD (R108). -/
theorem countP_opcodeBytes {opmod k : Nat} (hk : k < opmod) :
    (List.range 256).countP (fun b => b % opmod = k) = 256 / opmod + if k < 256 % opmod then 1 else 0 := by
  have hcount := Nat.count_modEq_card 256 (Nat.zero_lt_of_lt hk) k
  simpa only [Nat.count, Nat.ModEq, Nat.mod_eq_of_lt hk] using hcount

/-- Settles O6: three facts about every OPMOD, at OPMOD = 33, where 256 = 7 * 33 + 25. -/
theorem aliasBytesSelectOneOperation : Obligations.AliasBytesSelectOneOperation := by
  refine ⟨fun b b' rest h => decode_congr_mod h rest, fun i => lookup_ofNat i.isLt (by omega), fun i => ?_⟩
  have hedge : i.val < 256 % 33 ↔ i.val ≤ 24 := Nat.lt_succ_iff
  rw [countP_opcodeBytes i.isLt, if_congr hedge rfl rfl]
  split <;> rfl

/-! ## The RegisterPair byte -/

/-- A 3-bit field names the register of its value (R103). -/
@[simp] theorem Reg.index_ofField (f : BitVec 3) : (Reg.ofField f).index = f.toNat := by
  revert f
  decide

theorem pairDst_index (p : Byte) : (pairDst p).index = p.toNat % 8 := by
  rw [pairDst, Reg.index_ofField, BitVec.extractLsb'_toNat, Nat.shiftRight_zero]

theorem pairSrc_index (p : Byte) : (pairSrc p).index = p.toNat / 8 % 8 := by
  rw [pairSrc, Reg.index_ofField, BitVec.extractLsb'_toNat, Nat.shiftRight_eq_div_pow]

/-- The opcode byte 02 selects MOV, whose one operand is a RegisterPair byte (R103, R110). -/
theorem decode_mov (p : Byte) (rest : List Byte) :
    decode referenceTable (0x02#8 :: p :: rest) = .ok (.mov (pairDst p) (pairSrc p), rest) := rfl

/-- Settles O7: the two fields of the byte as remainders. -/
theorem registerPairFields : Obligations.RegisterPairFields := fun p rest =>
  ⟨pairDst p, pairSrc p, decode_mov p rest, pairDst_index p, pairSrc_index p⟩

end Sys2Proof
end

section
/-! Data movement: a completed register write, and loads and stores through a Register operand (40_data_movement.md
R130 to R136). -/

namespace Sys2Proof.Machine

/-! ## The shapes of the meanings -/

theorem exec_nop (s : State) : exec .nop s = .next (advanceIP 1 s) := rfl

theorem exec_imm (r : Byte) (v : Word) (s : State) :
    exec (.imm r v) s = completed 4 (withRegister r s fun d => setReg s d v) := rfl

theorem exec_mov (dst src : Reg) (s : State) :
    exec (.mov dst src) s = completed 2 (setReg s dst (getReg s src)) := rfl

theorem exec_lda (r : Byte) (s : State) :
    exec (.lda r) s = completed 2 (withRegisterValue r s fun addr => .next (s.withA (readWord s addr))) := rfl

theorem exec_ldb (r : Byte) (s : State) :
    exec (.ldb r) s = completed 2 (withRegisterValue r s fun addr => .next (s.withB (readWord s addr))) := rfl

theorem exec_sta (r : Byte) (s : State) :
    exec (.sta r) s = completed 2 (withRegisterValue r s fun addr => .next (writeWord s addr s.a)) := rfl

theorem exec_stb (r : Byte) (s : State) :
    exec (.stb r) s = completed 2 (withRegisterValue r s fun addr => .next (writeWord s addr s.b)) := rfl

/-! ## Register writes -/

/-- Only a Preloaded BankNum refuses a value (10_state.md R27). -/
theorem not_writeAllowed {s : State} {d : Reg} {v : Word} : ¬writeAllowed s d v ↔
    d = .BankNum ∧ s.cfg.variant = .preloaded ∧ s.cfg.nbanks ≤ v.toNat % 256 := by
  simp [writeAllowed]

/-- An allowed register write answers the state that the rules' own arithmetic gives (R25 to R28). -/
theorem setReg_of_writeAllowed {s : State} {d : Reg} {v : Word} (h : writeAllowed s d v) :
    setReg s d v = .next (registerWritten s d v) := by
  cases d with
  | A | B | X | Y | IP => rfl
  | SP => rw [registerWritten, ← setWidth_stackPtr_eq_ofNat]; rfl
  | Flags => rw [registerWritten, ← loByte_eq_ofNat]; rfl
  | BankNum =>
    have hb : s.cfg.variant = .streaming ∨ v.toNat % 256 < s.cfg.nbanks := by
      cases hv : s.cfg.variant with
      | preloaded => exact .inr (h rfl hv)
      | streaming => exact .inl rfl
    rw [setReg_bankNum_inRange hb, registerWritten, ← loByte_eq_ofNat]
    rfl

/-- A register write that is not allowed faults on the byte, and only halts (R27, 60_exceptions.md R212). -/
theorem setReg_of_not_writeAllowed {s : State} {d : Reg} {v : Word} (h : ¬writeAllowed s d v) :
    setReg s d v = .fault (.outOfRangeBank (v.toNat % 256 : Nat) (s.withHalted true)) := by
  obtain ⟨rfl, hv, hb⟩ := not_writeAllowed.mp h
  exact setReg_bankNum_outOfRange hv hb

/-- An instruction that ends with an allowed register write advances from the written state. -/
theorem completed_setReg_of_writeAllowed {s : State} {d : Reg} {v : Word} (n : Nat) (h : writeAllowed s d v) :
    completed n (setReg s d v) = .next (advanceIP n (registerWritten s d v)) := by
  rw [setReg_of_writeAllowed h, completed_next]

/-- An instruction whose register write is not allowed faults with that write. -/
theorem completed_setReg_of_not_writeAllowed {s : State} {d : Reg} {v : Word} (n : Nat) (h : ¬writeAllowed s d v) :
    completed n (setReg s d v) = .fault (.outOfRangeBank (v.toNat % 256 : Nat) (s.withHalted true)) := by
  rw [setReg_of_not_writeAllowed h, completed_fault]

/-! ## Register operands -/

/-- An index above 7 faults before the operand is used (30_encoding.md R102, 60_exceptions.md R211). -/
theorem completed_withRegister_illegal {r : Byte} (h : 7 < r.toNat) (n : Nat) (s : State) (body : Reg → Result) :
    completed n (withRegister r s body) = .fault (.invalidRegister r (s.withHalted true)) := by
  rw [withRegister_illegal (Reg.ofByte?_eq_none.mpr h), completed_fault]

/-- A Register operand used for its value faults in the same way. -/
theorem completed_withRegisterValue_illegal {r : Byte} (h : 7 < r.toNat) (n : Nat) (s : State)
    (body : Word → Result) : completed n (withRegisterValue r s body) = .fault (.invalidRegister r (s.withHalted true)) :=
  completed_withRegister_illegal h n s _

/-- A legal Register operand hands its value to an effect that always answers a next state. -/
theorem completed_withRegisterValue_legal {r : Byte} {g : Reg} (h : Reg.ofByte? r = some g) (n : Nat) (s : State)
    (effect : Word → State) : completed n (withRegisterValue r s fun v => .next (effect v)) =
      .next (advanceIP n (effect (getReg s g))) := by
  rw [withRegisterValue_legal h, completed_next]

/-! ## Stored words -/

/-- A stored word's first byte is read back in RAM (20_memory.md R65). -/
theorem readByte_writeWord_lo {s : State} {a v : Word} (hm : s.ram.wf = true) (ha : a.toNat < ramSize) :
    readByte (writeWord s a v) a = loByte v := by
  rw [readByte_writeWord a a v hm, if_pos ⟨rfl, ha⟩]

/-- A stored word's second byte is read back in RAM, also where its address has wrapped to 0 (R65, D15). -/
theorem readByte_writeWord_hi {s : State} {a v : Word} (hm : s.ram.wf = true) (ha : (a + 1#16).toNat < ramSize) :
    readByte (writeWord s a v) (a + 1#16) = hiByte v := by
  rw [readByte_writeWord a _ v hm, if_neg fun h => succ_ne a h.1, if_pos ⟨rfl, ha⟩]

/-! ## The statements -/

/-- Settles O35: the eight bytes are multiples of OPMOD = 33, so each decodes as 0x00 does. -/
theorem nopAdvancesIpOnly : Obligations.NopAdvancesIpOnly := by
  have multiple : ∀ b0 ∈ ([0x00, 0x21, 0x42, 0x63, 0x84, 0xA5, 0xC6, 0xE7] : List Byte), b0.toNat % 33 = 0 := by
    decide
  exact ⟨fun b0 hb rest => decode_congr_mod (b' := 0x00#8) (multiple b0 hb) rest, exec_nop⟩

/-- Settles O36: the register index is checked first, and the write then completes or faults. -/
theorem immLoadsTheNamedRegister : Obligations.ImmLoadsTheNamedRegister := by
  refine ⟨fun r lo hi rest => ?_, fun s r v => ⟨fun d hd hw => ?_, ?_, fun hr => ?_⟩⟩
  · rw [littleEndian_eq_wordOf]
    rfl
  · rw [exec_imm, withRegister_legal hd, completed_setReg_of_writeAllowed 4 hw]
  · rintro rfl hw
    have hd : Reg.ofByte? 6#8 = some .BankNum := rfl
    rw [exec_imm, withRegister_legal hd]
    exact completed_setReg_of_not_writeAllowed 4 hw
  · rw [exec_imm]
    exact completed_withRegister_illegal hr 4 s _

/-- Settles O37: the operand byte is the pair's canonical one, and both its fields name registers, so that the write
alone can fault. -/
theorem movCopiesSourceToDestination : Obligations.MovCopiesSourceToDestination := by
  refine ⟨fun dst src rest => ?_, fun s dst src => ⟨fun hw => ?_, fun hw => ?_⟩⟩
  · have hd := decode_mov (pairByte dst src) rest
    rwa [pairDst_pairByte, pairSrc_pairByte] at hd
  · rw [exec_mov, completed_setReg_of_writeAllowed 2 hw]
  · rw [exec_mov]
    exact completed_setReg_of_not_writeAllowed 2 hw

/-- Settles O38: each load is a word read at the operand's value. -/
theorem loadsReadThroughTheRegister : Obligations.LoadsReadThroughTheRegister := by
  refine ⟨fun r rest => ⟨rfl, rfl⟩, fun s r => ⟨fun g hg => ?_, fun hr => ?_⟩⟩
  · rw [littleEndian_eq_wordOf, exec_lda, exec_ldb]
    exact ⟨completed_withRegisterValue_legal hg 2 s _, completed_withRegisterValue_legal hg 2 s _⟩
  · rw [exec_lda, exec_ldb]
    exact ⟨completed_withRegisterValue_illegal hr 2 s _, completed_withRegisterValue_illegal hr 2 s _⟩

/-- Settles O39: each store is a word write at the operand's value, whose bytes in RAM are read back. -/
theorem storesWriteThroughTheRegister : Obligations.StoresWriteThroughTheRegister := by
  refine ⟨fun r rest => ⟨rfl, rfl⟩, fun s r => ⟨fun g hg => ?_, fun hr => ?_⟩⟩
  · rw [exec_sta, exec_stb, ← loByte_eq_ofNat, ← loByte_eq_ofNat, ← hiByte_eq_ofNat, ← hiByte_eq_ofNat]
    refine ⟨_, _, completed_withRegisterValue_legal hg 2 s _, completed_withRegisterValue_legal hg 2 s _, rfl, rfl,
      fun hm ha => ?_, fun hm ha => ?_⟩
    · exact ⟨readByte_writeWord_lo hm ha, readByte_writeWord_lo hm ha⟩
    · exact ⟨readByte_writeWord_hi hm ha, readByte_writeWord_hi hm ha⟩
  · rw [exec_sta, exec_stb]
    exact ⟨completed_withRegisterValue_illegal hr 2 s _, completed_withRegisterValue_illegal hr 2 s _⟩

end Sys2Proof.Machine
end

section
/-! PUSH and POP: the stack word at SP is stored and loaded, and SP stays (41_stack.md R150 to R152). -/

namespace Sys2Proof.Machine

/-! ## The stack word at SP -/

/-- Every stack address lies in RAM, so a stack word does not depend on the mapped bank (10_state.md R31). -/
theorem readStack_congr {s t : State} (h : t.ram = s.ram) (p : StackPtr) : readStack t p = readStack s p := by
  simp only [readStack, readByte_stackAddr, h]

/-- An advance of IP leaves every stack word alone, also where it maps the next bank. -/
theorem readStack_advanceIP (n : Nat) (s : State) (p : StackPtr) : readStack (advanceIP n s) p = readStack s p :=
  readStack_congr (advanceIP_kept n s).ram p

theorem writeStack_sp (s : State) (p : StackPtr) (v : Word) : (writeStack s p v).sp = s.sp := by
  obtain ⟨m, hm⟩ := writeStack_eq s p v
  rw [hm, State.withRam_sp]

/-! ## PUSH -/

theorem exec_push (r : Byte) (s : State) :
    exec (.push r) s = completed 2 (withRegisterValue r s fun v => .next (writeStack s s.sp v)) := rfl

/-- PUSH of a register stores its word at SP (R150). -/
theorem exec_push_legal {r : Byte} {g : Reg} (hg : Reg.ofByte? r = some g) (s : State) :
    exec (.push r) s = .next (advanceIP 2 (writeStack s s.sp (getReg s g))) := by
  rw [exec_push]
  exact completed_withRegisterValue_legal hg 2 s _

/-- After a stack store and an advance of IP, SP is as before (R152, D20). -/
theorem advanceIP_writeStack_sp (n : Nat) (s : State) (p : StackPtr) (v : Word) :
    (advanceIP n (writeStack s p v)).sp = s.sp := by
  rw [(advanceIP_kept n _).sp, writeStack_sp]

theorem readStack_advanceIP_writeStack (n : Nat) {s : State} (p : StackPtr) (v : Word) (hm : s.ram.wf = true) :
    readStack (advanceIP n (writeStack s p v)) p = v := by
  rw [readStack_advanceIP, readStack_writeStack p v hm]

theorem advanceIP_writeStack_ram_wf (n : Nat) {s : State} (p : StackPtr) (v : Word) (hm : s.ram.wf = true) :
    (advanceIP n (writeStack s p v)).ram.wf = true := by
  rw [(advanceIP_kept n _).ram]
  exact writeStack_ram_wf p v hm

/-- Settles O40: the index is checked first; the stack store then changes RAM alone. -/
theorem pushStoresAtSpAndKeepsIt : Obligations.PushStoresAtSpAndKeepsIt := by
  refine ⟨fun r rest => rfl, fun s r => ⟨fun g hg => ?_, fun hr => ?_⟩⟩
  · exact ⟨_, exec_push_legal hg s, rfl, advanceIP_writeStack_sp 2 s _ _, readStack_advanceIP_writeStack 2 _ _⟩
  · rw [exec_push]
    exact completed_withRegisterValue_illegal hr 2 s _

/-! ## POP -/

theorem exec_pop (r : Byte) (s : State) :
    exec (.pop r) s = completed 2 (withRegister r s fun d => setReg s d (readStack s s.sp)) := rfl

/-- POP into a register writes it with the stack word at SP (R151). -/
theorem exec_pop_legal {r : Byte} {g : Reg} {s : State} (hg : Reg.ofByte? r = some g)
    (hw : writeAllowed s g (readStack s s.sp)) :
    exec (.pop r) s = .next (advanceIP 2 (registerWritten s g (readStack s s.sp))) := by
  rw [exec_pop, withRegister_legal hg, completed_setReg_of_writeAllowed 2 hw]

/-- An allowed write of another register, BankNum included, leaves SP alone. -/
theorem registerWritten_sp_of_ne {s : State} {d : Reg} {v : Word} (hd : d ≠ .SP) (hw : writeAllowed s d v) :
    (registerWritten s d v).sp = s.sp :=
  setReg_sp_of_ne hd (setReg_of_writeAllowed hw)

/-- Settles O41: the index is checked first, and the write of the stack word then completes or faults. -/
theorem popReadsAtSpAndKeepsIt : Obligations.PopReadsAtSpAndKeepsIt := by
  refine ⟨fun r rest => rfl, fun s r => ⟨fun g hg hw => ⟨exec_pop_legal hg hw, fun hsp => ?_⟩, ?_, fun hr => ?_⟩⟩
  · rw [(advanceIP_kept 2 _).sp, registerWritten_sp_of_ne hsp hw]
  · rintro rfl hw
    have hg : Reg.ofByte? 6#8 = some .BankNum := rfl
    rw [exec_pop, withRegister_legal hg]
    exact completed_setReg_of_not_writeAllowed 2 hw
  · rw [exec_pop]
    exact completed_withRegister_illegal hr 2 s _

/-! ## One after the other -/

/-- A, B, X and Y refuse no value (10_state.md R25). -/
theorem writeAllowed_of_general {s : State} {d : Reg} {v : Word} (hd : d = .A ∨ d = .B ∨ d = .X ∨ d = .Y) :
    writeAllowed s d v := by
  rintro rfl
  simp at hd

/-- A, B, X and Y hold the whole word, and an advance of IP leaves it (R25, R34). -/
theorem getReg_advanceIP_registerWritten (n : Nat) {s : State} {d : Reg} {v : Word}
    (hd : d = .A ∨ d = .B ∨ d = .X ∨ d = .Y) : getReg (advanceIP n (registerWritten s d v)) d = v := by
  have hip : d ≠ .IP := by
    rintro rfl
    simp at hd
  rw [(advanceIP_kept n _).getReg hip]
  obtain rfl | rfl | rfl | rfl := hd <;> rfl

/-- Settles O50: the first PUSH keeps SP, so the second instruction finds, or overwrites, the word it stored. -/
theorem pushThenPopCopiesARegister : Obligations.PushThenPopCopiesARegister := by
  intro s s1 r1 r2 g1 g2 hm h1 h2 hpush
  have hs1 : advanceIP 2 (writeStack s s.sp (getReg s g1)) = s1 :=
    Host.Outcome.next.inj ((exec_push_legal h1 s).symm.trans hpush)
  have hsp : s1.sp = s.sp := hs1 ▸ advanceIP_writeStack_sp 2 s _ _
  have hm1 : s1.ram.wf = true := hs1 ▸ advanceIP_writeStack_ram_wf 2 _ _ hm
  have htop : readStack s1 s.sp = getReg s g1 := hs1 ▸ readStack_advanceIP_writeStack 2 _ _ hm
  refine ⟨fun hg => ?_, _, exec_push_legal h2 s1, ?_, ?_⟩
  · refine ⟨_, exec_pop_legal h2 (writeAllowed_of_general hg), ?_⟩
    rw [getReg_advanceIP_registerWritten 2 hg, hsp, htop]
  · rw [advanceIP_writeStack_sp, hsp]
  · rw [← hsp]
    exact readStack_advanceIP_writeStack 2 _ _ hm1

end Sys2Proof.Machine
end

section
/-! Stack arithmetic: what the MathOperations, NOT and CMP compute from the two words below SP, and where the result
goes (42_alu.md R160 to R169). -/

namespace Sys2Proof.Machine

/-! ## The shapes of the meanings -/

theorem exec_add (s : State) : exec .add s = completed 1 (mathOperation (fun a b => a + b) s) := rfl

theorem exec_sub (s : State) : exec .sub s = completed 1 (mathOperation (fun a b => a - b) s) := rfl

theorem exec_mul (s : State) : exec .mul s = completed 1 (mathOperation (fun a b => a * b) s) := rfl

theorem exec_div (s : State) : exec .div s = completed 1 (mathOperation quotient s) := rfl

theorem exec_and (s : State) : exec .and s = completed 1 (mathOperation (fun a b => a &&& b) s) := rfl

theorem exec_or (s : State) : exec .or s = completed 1 (mathOperation (fun a b => a ||| b) s) := rfl

theorem exec_xor (s : State) : exec .xor s = completed 1 (mathOperation (fun a b => a ^^^ b) s) := rfl

/-- Each MathOperation is the common body with a function of its own (R160). -/
theorem exec_of_isMath {i : Instr} (hi : isMath i) :
    ∃ f : Word → Word → Word, ∀ s, exec i s = completed 1 (mathOperation f s) := by
  obtain rfl | rfl | rfl | rfl | rfl | rfl | rfl := hi
  · exact ⟨_, exec_add⟩
  · exact ⟨_, exec_sub⟩
  · exact ⟨_, exec_mul⟩
  · exact ⟨_, exec_div⟩
  · exact ⟨_, exec_and⟩
  · exact ⟨_, exec_or⟩
  · exact ⟨_, exec_xor⟩

/-- NOT's last step sets SP to the value it has (R168). -/
theorem exec_not (s : State) :
    exec .not s = .next (advanceIP 1 (writeStack s (prevSP2 s.sp) (~~~readStack s (prevSP2 s.sp)))) := by
  obtain ⟨m, hm⟩ := writeStack_eq s (prevSP2 s.sp) (~~~readStack s (prevSP2 s.sp))
  simp only [exec, execNot, nextSP_nextSP_prevSP2, completed_next, hm]
  rfl

theorem exec_cmp (s : State) : exec .cmp s = .next (advanceIP 1 ((s.withFlags (compareFlags s.flags
    (readStack s (prevSP4 s.sp)) (readStack s (prevSP2 s.sp)))).withSp (prevSP4 s.sp))) := rfl

/-! ## The results in arithmetic -/

theorem prevSP2_eq_sub (p : StackPtr) : prevSP2 p = p - 2#15 := by
  unfold prevSP2 prevSP
  bv_omega

theorem prevSP4_eq_sub (p : StackPtr) : prevSP4 p = p - 4#15 := by
  unfold prevSP4
  rw [prevSP2_eq_sub, prevSP2_eq_sub]
  bv_omega

/-- R161. -/
theorem add_eq_ofNat (a b : Word) : a + b = BitVec.ofNat 16 ((a.toNat + b.toNat) % 65536) := by
  apply BitVec.eq_of_toNat_eq
  simp

/-- R162: 65536 is added first, so that the difference of naturals is exact. -/
theorem sub_eq_ofNat (a b : Word) : a - b = BitVec.ofNat 16 ((a.toNat + 65536 - b.toNat) % 65536) := by
  bv_omega

/-- R163. -/
theorem mul_eq_ofNat (a b : Word) : a * b = BitVec.ofNat 16 (a.toNat * b.toNat % 65536) := by
  apply BitVec.eq_of_toNat_eq
  simp

/-- R168. -/
theorem not_eq_ofNat (w : Word) : ~~~w = BitVec.ofNat 16 (65535 - w.toNat) := by
  bv_omega

/-! ## The state after a MathOperation's effect -/

/-- The state with a MathOperation's result stored at SP - 4 and SP two lower, before IP advances (R160). -/
def resultStored (s : State) (v : Word) : State := (writeStack s (prevSP4 s.sp) v).withSp (prevSP2 s.sp)

theorem resultStored_eq_sub (s : State) (v : Word) :
    resultStored s v = { writeStack s (s.sp - 4#15) v with sp := s.sp - 2#15 } := by
  rw [resultStored, prevSP4_eq_sub, prevSP2_eq_sub]
  rfl

/-- The common body always completes, with the function's value on `a` and `b` as its result. -/
theorem completed_mathOperation (f : Word → Word → Word) (s : State) : completed 1 (mathOperation f s) =
    .next (advanceIP 1 (resultStored s (f (readStack s (prevSP4 s.sp)) (readStack s (prevSP2 s.sp))))) := by
  simp only [mathOperation, nextSP_nextSP_prevSP4, completed_next]
  rfl

/-- The same with the addresses, the operands and the result as the rules write them. -/
theorem completed_mathOperation_of_operands {f : Word → Word → Word} {s : State} {a b v : Word}
    (ha : a = readStack s (s.sp - 4#15)) (hb : b = readStack s (s.sp - 2#15)) (hv : f a b = v) :
    completed 1 (mathOperation f s) =
      .next (advanceIP 1 { writeStack s (s.sp - 4#15) v with sp := s.sp - 2#15 }) := by
  rw [completed_mathOperation, prevSP4_eq_sub, prevSP2_eq_sub, ← ha, ← hb, hv, resultStored_eq_sub]

/-- Only RAM and SP differ. -/
theorem resultStored_frame (s : State) (v : Word) :
    ∃ m, resultStored s v = { s with ram := m, sp := prevSP2 s.sp } := by
  obtain ⟨m, hm⟩ := writeStack_eq s (prevSP4 s.sp) v
  exact ⟨m, by rw [resultStored, hm]; rfl⟩

/-- The result is read back at SP - 4. -/
theorem readStack_resultStored {s : State} (v : Word) (hm : s.ram.wf = true) :
    readStack (resultStored s v) (prevSP4 s.sp) = v :=
  (readStack_congr rfl _).trans (readStack_writeStack _ v hm)

/-- Every stack address but the two of the result reads as before. -/
theorem readByte_resultStored_other {s : State} (v : Word) {q : StackPtr} (hlo : q ≠ prevSP4 s.sp)
    (hhi : q ≠ nextSP (prevSP4 s.sp)) : readByte (resultStored s v) (stackAddr q) = readByte s (stackAddr q) :=
  calc readByte (resultStored s v) (stackAddr q)
    _ = readByte (writeStack s (prevSP4 s.sp) v) (stackAddr q) := readByte_congr rfl rfl _
    _ = readByte s (stackAddr q) :=
      readByte_writeStack_other (fun h => hlo (stackAddr_injective h)) (fun h => hhi (stackAddr_injective h))

/-- `b` is kept: its two addresses are not the result's, around the circle too. -/
theorem readStack_resultStored_top (s : State) (v : Word) :
    readStack (resultStored s v) (prevSP2 s.sp) = readStack s (prevSP2 s.sp) := by
  have lo : readByte (resultStored s v) (stackAddr (prevSP2 s.sp)) = readByte s (stackAddr (prevSP2 s.sp)) := by
    apply readByte_resultStored_other <;> simp only [prevSP4, prevSP2, prevSP, nextSP] <;> bv_omega
  have hi : readByte (resultStored s v) (stackAddr (nextSP (prevSP2 s.sp))) =
      readByte s (stackAddr (nextSP (prevSP2 s.sp))) := by
    apply readByte_resultStored_other <;> simp only [prevSP4, prevSP2, prevSP, nextSP] <;> bv_omega
  rw [readStack, lo, hi, readStack]

/-- An advance of IP leaves every byte at a stack address alone, also where it maps the next bank. -/
theorem readByte_stackAddr_advanceIP (n : Nat) (s : State) (q : StackPtr) :
    readByte (advanceIP n s) (stackAddr q) = readByte s (stackAddr q) := by
  rw [readByte_stackAddr, readByte_stackAddr, (advanceIP_kept n s).ram]

/-! ## The statements -/

/-- Settles O42: the common body, with each operation's word as the remainder of the exact result. -/
theorem arithmeticResults : Obligations.ArithmeticResults := by
  refine ⟨fun rest => ⟨rfl, rfl, rfl, rfl⟩, fun s a b ha hb => ⟨?_, ?_, ?_, ?_⟩⟩
  · exact (exec_add s).trans (completed_mathOperation_of_operands ha hb (add_eq_ofNat a b))
  · exact (exec_sub s).trans (completed_mathOperation_of_operands ha hb (sub_eq_ofNat a b))
  · exact (exec_mul s).trans (completed_mathOperation_of_operands ha hb (mul_eq_ofNat a b))
  · exact (exec_div s).trans (completed_mathOperation_of_operands ha hb rfl)

/-- Settles O43: the common body with the bitwise operations, read bit by bit. -/
theorem logicResults : Obligations.LogicResults := by
  refine ⟨fun rest => ⟨rfl, rfl, rfl⟩, fun s a b ha hb => ⟨a &&& b, a ||| b, a ^^^ b, fun k _ => ?_, ?_, ?_, ?_⟩⟩
  · exact ⟨BitVec.getLsbD_and, BitVec.getLsbD_or, BitVec.getLsbD_xor⟩
  · exact (exec_and s).trans (completed_mathOperation_of_operands ha hb rfl)
  · exact (exec_or s).trans (completed_mathOperation_of_operands ha hb rfl)
  · exact (exec_xor s).trans (completed_mathOperation_of_operands ha hb rfl)

/-- Settles O44: the seven operations share one body, whose effect changes RAM and SP alone; the advance after it
touches no stack byte. -/
theorem mathOperationStackLayout : Obligations.MathOperationStackLayout := by
  intro i hi
  obtain ⟨f, hf⟩ := exec_of_isMath hi
  refine ⟨f, fun s hm => ?_⟩
  have hexec := (hf s).trans (completed_mathOperation f s)
  generalize hv : f (readStack s (prevSP4 s.sp)) (readStack s (prevSP2 s.sp)) = v at hexec
  have kept := advanceIP_kept 1 (resultStored s v)
  obtain ⟨m, hframe⟩ := resultStored_frame s v
  have hcircle : nextSP (nextSP (prevSP (prevSP (prevSP (prevSP s.sp))))) = prevSP2 s.sp :=
    nextSP_nextSP_prevSP4 s.sp
  refine ⟨_, m, hexec, by rw [hframe, hcircle], ?_, ?_, kept.sp, ?_, ?_, ?_, ?_, ?_, ?_, fun q hlo hhi => ?_⟩
  · exact (readStack_advanceIP 1 _ _).trans ((readStack_resultStored v hm).trans hv.symm)
  · exact (readStack_advanceIP 1 _ _).trans (readStack_resultStored_top s v)
  · rw [kept.flags, hframe]
  · rw [kept.a, hframe]
  · rw [kept.b, hframe]
  · rw [kept.x, hframe]
  · rw [kept.y, hframe]
  · rw [kept.bankNum, hframe]
  · rw [readByte_stackAddr_advanceIP]
    have hnext : nextSP (prevSP4 s.sp) = prevSP (prevSP (prevSP s.sp)) := nextSP_prevSP _
    exact readByte_resultStored_other v hlo (hnext ▸ hhi)

/-- Settles O45: the complement is stored in place, and only RAM changes before the advance. -/
theorem notComplementsTheTopWord : Obligations.NotComplementsTheTopWord := by
  refine ⟨fun rest => rfl, fun s w hw => ?_⟩
  have hexec := exec_not s
  rw [prevSP2_eq_sub, ← hw] at hexec
  refine ⟨by rw [hexec, not_eq_ofNat], fun hm => ⟨_, hexec, advanceIP_writeStack_sp 1 s _ _, ?_⟩⟩
  rw [readStack_advanceIP_writeStack 1 _ _ hm, BitVec.toNat_not]

/-- Settles O46: the order of the two words in Flags, and SP four lower. -/
theorem compareSetsExactlyOneFlag : Obligations.CompareSetsExactlyOneFlag := by
  refine ⟨fun rest => rfl, fun s a b ha hb => ?_⟩
  rw [exec_cmp, prevSP4_eq_sub, prevSP2_eq_sub, ← ha, ← hb, compareFlags_eq]
  rfl

end Sys2Proof.Machine
end

section
/-! The conditional jumps: the six kinds share one meaning per operand form, which only the kind's literal pattern
tells apart (43_control_transfer.md R180 to R192). -/

namespace Sys2Proof.Machine

/-! ## The jump of each kind -/

/-- The jump of a kind to an address (R181 to R186). -/
def addressJump (k : JumpKind) (t : Word) : Instr :=
  match k with
  | .equal => .jeAddr t
  | .notEqual => .jneAddr t
  | .greaterThan => .jgtAddr t
  | .lessThan => .jltAddr t
  | .greaterThanOrEqualTo => .jgeAddr t
  | .lessThanOrEqualTo => .jleAddr t

/-- The jump of a kind to the address in a register (R187 to R192). -/
def registerJump (k : JumpKind) (r : Byte) : Instr :=
  match k with
  | .equal => .jeReg r
  | .notEqual => .jneReg r
  | .greaterThan => .jgtReg r
  | .lessThan => .jltReg r
  | .greaterThanOrEqualTo => .jgeReg r
  | .lessThanOrEqualTo => .jleReg r

theorem exec_addressJump (k : JumpKind) (t : Word) (s : State) : exec (addressJump k t) s = jumpTo k 3 t s := by
  cases k <;> rfl

theorem exec_registerJump (k : JumpKind) (r : Byte) (s : State) :
    exec (registerJump k r) s = withRegisterValue r s fun t => jumpTo k 2 t s := by
  cases k <;> rfl

/-! ## The two answers of a jump -/

/-- A jump goes to its target exactly where Flags modulo 8 is its kind's pattern, and otherwise past itself (R180). -/
theorem jumpTo_eq (k : JumpKind) (n : Nat) (t : Word) (s : State) : jumpTo k n t s =
    .next (if s.flags.toNat % 8 = k.pattern.toNat then s.withIp t else advanceIP n s) := by
  simp only [jumpTo_next, condition_eq, decide_eq_true_eq]

/-- An address jump is three bytes long (R181). -/
theorem exec_addressJump_eq (k : JumpKind) (t : Word) (s : State) : exec (addressJump k t) s =
    .next (if s.flags.toNat % 8 = k.pattern.toNat then s.withIp t else advanceIP 3 s) := by
  rw [exec_addressJump, jumpTo_eq]

/-- A register jump's target is the register's value, and the instruction is two bytes long (R187). -/
theorem exec_registerJump_legal {r : Byte} {g : Reg} (hg : Reg.ofByte? r = some g) (k : JumpKind) (s : State) :
    exec (registerJump k r) s =
      .next (if s.flags.toNat % 8 = k.pattern.toNat then s.withIp (getReg s g) else advanceIP 2 s) := by
  rw [exec_registerJump, withRegisterValue_legal hg, jumpTo_eq]

/-- An index above 7 faults before the condition is tested (D18). -/
theorem exec_registerJump_illegal {r : Byte} (hr : 7 < r.toNat) (k : JumpKind) (s : State) :
    exec (registerJump k r) s = .fault (.invalidRegister r (s.withHalted true)) := by
  rw [exec_registerJump, withRegisterValue_illegal (Reg.ofByte?_eq_none.mpr hr)]

/-! ## The statements -/

/-- Settles O47: the address jump of each kind, with the kind's pattern as a number. -/
theorem addressJumpsMatchOnePattern : Obligations.AddressJumpsMatchOnePattern := by
  refine ⟨fun lo hi rest => ?_, fun s t => ?_⟩
  · rw [littleEndian_eq_wordOf]
    exact ⟨rfl, rfl, rfl, rfl, rfl, rfl⟩
  · have jump (k : JumpKind) := exec_addressJump_eq k t s
    exact ⟨jump .equal, jump .notEqual, jump .greaterThan, jump .lessThan, jump .greaterThanOrEqualTo,
      jump .lessThanOrEqualTo⟩

/-- Settles O48: the register jump of each kind; the index is checked before the Flags. -/
theorem registerJumpsMatchOnePattern : Obligations.RegisterJumpsMatchOnePattern := by
  refine ⟨fun r rest => ⟨rfl, rfl, rfl, rfl, rfl, rfl⟩, fun s r => ⟨fun g hg => ?_, fun hr => ?_⟩⟩
  · have jump (k : JumpKind) := exec_registerJump_legal hg k s
    exact ⟨jump .equal, jump .notEqual, jump .greaterThan, jump .lessThan, jump .greaterThanOrEqualTo,
      jump .lessThanOrEqualTo⟩
  · have faults (k : JumpKind) := exec_registerJump_illegal hr k s
    exact ⟨faults .equal, faults .notEqual, faults .greaterThan, faults .lessThan, faults .greaterThanOrEqualTo,
      faults .lessThanOrEqualTo⟩

end Sys2Proof.Machine
end

section
/-! Text output, and the environment's answer to a waiting READ (44_io.md R201, R202 and R205). -/

namespace Sys2Proof.Machine

/-! ## The scan of a WRITE -/

/-- The addresses of a text after its first byte are those of a text one address further on. -/
theorem add_ofNat_succ (t : Word) (k : Nat) : t + BitVec.ofNat 16 (k + 1) = t + 1#16 + BitVec.ofNat 16 k := by
  rw [Nat.add_comm, BitVec.ofNat_add, ← BitVec.add_assoc]

/-- A scan of `n` addresses finds a text that stands there with its zero byte: the converse of `scanText_some`. -/
theorem scanText_of_bytes {s : State} {t : Word} {n : Nat} {text : List Byte} (hl : text.length < n)
    (hz : readByte s (t + BitVec.ofNat 16 text.length) = 0x00#8)
    (hb : ∀ k (hk : k < text.length), readByte s (t + BitVec.ofNat 16 k) = text[k] ∧ text[k] ≠ 0x00#8) :
    scanText s t n = some text := by
  induction n generalizing t text with
  | zero => exact absurd hl (Nat.not_lt_zero _)
  | succ n ih =>
    cases text with
    | nil =>
      have hzero : readByte s t = 0x00#8 := by simpa using hz
      rw [scanText, if_pos hzero]
    | cons c text =>
      obtain ⟨hc, hne⟩ : readByte s t = c ∧ c ≠ 0x00#8 := by simpa using hb 0 (Nat.succ_pos _)
      have hrest : scanText s (t + 1#16) n = some text := by
        refine ih (Nat.lt_of_succ_lt_succ hl) (by rw [← add_ofNat_succ]; exact hz) fun k hk => ?_
        rw [← add_ofNat_succ]
        exact hb (k + 1) (Nat.succ_lt_succ hk)
      rw [scanText, hc, if_neg hne, hrest, Option.map_some]

/-- One pass through the address space finds exactly the text at the target (R201). -/
theorem scanText_scanLimit_iff {s : State} {t : Word} {text : List Byte} :
    scanText s t scanLimit = some text ↔ textAt s t text :=
  ⟨scanText_some, fun ⟨hl, hz, hb⟩ => scanText_of_bytes hl hz hb⟩

/-! ## The answers of a WRITE -/

/-- The text at the target is emitted as one event (R201, D19). -/
theorem writeText_of_textAt {s : State} {t : Word} {text : List Byte} (h : textAt s t text) :
    writeText t s = .next (s.emit (.output text)) := by
  rw [writeText, scanText_scanLimit_iff.mpr h]

/-- A scan that ended would have met a zero byte (U7). -/
theorem writeText_of_no_zero {s : State} (h : ∀ a : Word, readByte s a ≠ 0x00#8) (t : Word) :
    writeText t s = .fault (.writeNeverCompletes t) := by
  obtain ⟨text, htext, -⟩ | ⟨-, hw⟩ := writeText_cases t s
  · obtain ⟨-, hz, -⟩ := scanText_some htext
    exact absurd hz (h _)
  · exact hw

theorem exec_writeAddr (t : Word) (s : State) : exec (.writeAddr t) s = completed 3 (writeText t s) := rfl

theorem exec_writeReg (r : Byte) (s : State) :
    exec (.writeReg r) s = completed 2 (withRegisterValue r s fun t => writeText t s) := rfl

/-- Settles O51: one pass of the scan finds the text at the target, or there is no zero byte to end it. -/
theorem writeEmitsTextUpToZero : Obligations.WriteEmitsTextUpToZero := by
  refine ⟨fun lo hi rest => ?_, fun s => ⟨fun t text htext => ⟨?_, ?_⟩, fun t hnz => ?_, fun r hr => ?_⟩⟩
  · rw [littleEndian_eq_wordOf]
    exact ⟨rfl, rfl⟩
  · rw [exec_writeAddr, writeText_of_textAt htext]
    rfl
  · rintro r g hg rfl
    rw [exec_writeReg, withRegisterValue_legal hg, writeText_of_textAt htext]
    rfl
  · rw [exec_writeAddr, writeText_of_no_zero hnz, completed_fault]
  · rw [exec_writeReg]
    exact completed_withRegisterValue_illegal hr 2 s _

/-! ## A step while a READ waits -/

/-- A waiting machine fetches nothing: its step is the environment's answer (R205, log entry 8). -/
theorem step_of_pending {s : State} {p : PendingRead} (hh : s.halted = false) (hp : s.pending = some p) :
    step s = resumeFromEnvironment s := by
  simp [step, hh, hp]

theorem resumeFromEnvironment_of_ready {s : State} {text : List Byte} {later : List (List Byte)}
    (h : s.inputs = text :: later) : resumeFromEnvironment s = resumeWithInput text { s with inputs := later } := by
  rw [resumeFromEnvironment, h]

/-- Where no string is ready, the free string of the current draw is used up (R9, log entry 9). -/
theorem resumeFromEnvironment_of_none_ready {s : State} (h : s.inputs = []) :
    resumeFromEnvironment s = resumeWithInput (Config.inputText s.draws) { s with draws := s.draws + 1 } := by
  rw [resumeFromEnvironment, h]

/-- Settles O54: the step is the environment's answer, whose string depends on what is ready. -/
theorem stepAnswersAWaitingRead : Obligations.StepAnswersAWaitingRead := by
  intro s p hh hp
  rw [step_of_pending hh hp]
  exact ⟨fun text later => resumeFromEnvironment_of_ready,
    fun hnone => ⟨_, rfl, resumeFromEnvironment_of_none_ready hnone⟩⟩

end Sys2Proof.Machine
end

section
/-! The state a fault leaves (60_exceptions.md R212). -/

namespace Sys2Proof.Machine

/-- InvalidRegister carries the state before the step, halted: of the three ways to fault only an illegal index
raises it. -/
theorem exec_invalidRegister_state {i : Instr} {s t : State} {r : Byte}
    (h : exec i s = .fault (.invalidRegister r t)) : t = s.withHalted true := by
  obtain ⟨_, -, -, hf⟩ | ⟨_, -, -, -, hf⟩ | ⟨_, -, -, hf⟩ := exec_fault_cases h
  case inl => exact (Fault.invalidRegister.inj hf).2
  case inr.inl => cases hf
  case inr.inr => cases hf

/-- OutOfRangeBank carries the state before the step, halted: of the three ways to fault only a write of a bank number
out of range raises it. -/
theorem exec_outOfRangeBank_state {i : Instr} {s t : State} {v : Int}
    (h : exec i s = .fault (.outOfRangeBank v t)) : t = s.withHalted true := by
  obtain ⟨_, -, -, hf⟩ | ⟨_, -, -, -, hf⟩ | ⟨_, -, -, hf⟩ := exec_fault_cases h
  case inl => cases hf
  case inr.inl => exact (Fault.outOfRangeBank.inj hf).2
  case inr.inr => cases hf

/-- Settles O17: by the ways an instruction can fault, each of which raises its fault in the state before the step. -/
theorem faultsArePreciseAndHalt : Obligations.FaultsArePreciseAndHalt := fun _ _ _ _ _ =>
  ⟨exec_invalidRegister_state, exec_outOfRangeBank_state⟩

end Sys2Proof.Machine
end

section
/-! The decoder and the encoder over every decode table: the round trip, where each answers, and how many bytes are
taken (30_encoding.md sections 1 to 7). -/

namespace Sys2Proof

/-! ## Decoding after the opcode byte -/

/-- Where the opcode byte selects an operation, decoding reads that operation's operands (R107). -/
theorem decode_of_lookup {t : DecodeTable} {b0 : Byte} {op : Operation} (h : t.lookup b0 = some op)
    (bs : List Byte) : decode t (b0 :: bs) = decodeOperands op bs := by
  simp only [decode, h]

/-- Only an opcode byte that selects an operation starts an instruction. -/
theorem lookup_of_decode_ok {t : DecodeTable} {b0 : Byte} {bs rest : List Byte} {i : Instr}
    (h : decode t (b0 :: bs) = .ok (i, rest)) : ∃ op, t.lookup b0 = some op ∧ decodeOperands op bs = .ok (i, rest) := by
  cases hop : t.lookup b0 with
  | none => simp only [decode, hop] at h; cases h
  | some op => exact ⟨op, rfl, (decode_of_lookup hop bs).symm.trans h⟩

/-- What decoding can answer where `n` operand bytes are needed: an instruction where the window holds them, and
otherwise that the window ends too early (R119). -/
def NeedsBytes (n : Nat) (bs : List Byte) (d : Decoded) : Prop :=
  (n ≤ bs.length ∧ ∃ p, d = .ok p) ∨ (bs.length < n ∧ d = .error .outOfRange)

theorem formatF0_needsBytes (i : Instr) (bs : List Byte) : NeedsBytes 0 bs (formatF0 i bs) :=
  .inl ⟨Nat.zero_le _, _, rfl⟩

theorem formatFR_needsBytes (mk : Byte → Instr) (bs : List Byte) : NeedsBytes 1 bs (formatFR mk bs) := by
  rcases bs with _ | ⟨b1, rest⟩
  · exact .inr ⟨by simp, rfl⟩
  · exact .inl ⟨by simp, _, rfl⟩

theorem formatFP_needsBytes (mk : Reg → Reg → Instr) (bs : List Byte) : NeedsBytes 1 bs (formatFP mk bs) := by
  rcases bs with _ | ⟨b1, rest⟩
  · exact .inr ⟨by simp, rfl⟩
  · exact .inl ⟨by simp, _, rfl⟩

theorem formatFI_needsBytes (mk : Word → Instr) (bs : List Byte) : NeedsBytes 2 bs (formatFI mk bs) := by
  rcases bs with _ | ⟨b1, _ | ⟨b2, rest⟩⟩
  · exact .inr ⟨by simp, rfl⟩
  · exact .inr ⟨by simp, rfl⟩
  · exact .inl ⟨by simp, _, rfl⟩

theorem formatFRI_needsBytes (mk : Byte → Word → Instr) (bs : List Byte) : NeedsBytes 3 bs (formatFRI mk bs) := by
  rcases bs with _ | ⟨b1, _ | ⟨b2, _ | ⟨b3, rest⟩⟩⟩
  · exact .inr ⟨by simp, rfl⟩
  · exact .inr ⟨by simp, rfl⟩
  · exact .inr ⟨by simp, rfl⟩
  · exact .inl ⟨by simp, _, rfl⟩

/-- Each operation's format needs the operand bytes that its length says (R100, R110). -/
theorem decodeOperands_needsBytes (op : Operation) (bs : List Byte) :
    NeedsBytes (op.length - 1) bs (decodeOperands op bs) := by
  cases op with
  | imm => exact formatFRI_needsBytes _ bs
  | mov => exact formatFP_needsBytes _ bs
  | nop | add | sub | mul | div | and | or | xor | not | cmp => exact formatF0_needsBytes _ bs
  | lda | ldb | sta | stb | push | pop => exact formatFR_needsBytes _ bs
  | jeAddr | jneAddr | jgtAddr | jltAddr | jgeAddr | jleAddr => exact formatFI_needsBytes _ bs
  | jeReg | jneReg | jgtReg | jltReg | jgeReg | jleReg => exact formatFR_needsBytes _ bs
  | writeAddr | readAddr => exact formatFI_needsBytes _ bs
  | writeReg | readReg => exact formatFR_needsBytes _ bs

/-- An instruction has one to four bytes (R100). -/
theorem Operation.length_bounds (op : Operation) : 1 ≤ op.length ∧ op.length ≤ 4 := by
  cases op <;> decide

/-! ## Which operations a table selects -/

/-- An admissible table has an operation for every opcode byte (R112). -/
theorem exists_lookup_of_admissible {t : DecodeTable} (h : t.admissible = true) (b0 : Byte) :
    ∃ op, t.lookup b0 = some op := by
  simp only [DecodeTable.admissible, Bool.and_eq_true, decide_eq_true_eq] at h
  obtain ⟨hpos, hlen⟩ := h
  have hlt : b0.toNat % t.opmod < t.ops.length := (Nat.mod_lt _ hpos).trans_le hlen
  exact ⟨_, List.getElem?_eq_getElem hlt⟩

/-- Under an admissible table four bytes are enough for every instruction (R112, R115). -/
theorem decode_of_admissible {t : DecodeTable} (h : t.admissible = true) (b0 b1 b2 b3 : Byte) :
    ∃ i rest, decode t [b0, b1, b2, b3] = .ok (i, rest) := by
  obtain ⟨op, hop⟩ := exists_lookup_of_admissible h b0
  obtain ⟨-, ⟨i, rest⟩, hd⟩ | ⟨hshort, -⟩ := decodeOperands_needsBytes op [b1, b2, b3]
  · exact ⟨i, rest, (decode_of_lookup hop _).trans hd⟩
  · have hmax := op.length_bounds.2
    simp only [List.length_cons, List.length_nil] at hshort
    omega

/-- The reachable operations are those that some opcode byte selects (R107, R109). -/
theorem mem_reachable_iff {t : DecodeTable} {op : Operation} :
    op ∈ t.reachable ↔ ∃ b0, t.lookup b0 = some op ∧ 0 < t.opmod := by
  simp only [DecodeTable.reachable, List.mem_take_iff_getElem]
  constructor
  · rintro ⟨k, hk, rfl⟩
    have hlt : k < t.opmod ∧ k < 256 ∧ k < t.ops.length := by omega
    obtain ⟨hmod, hbyte, hlen⟩ := hlt
    exact ⟨BitVec.ofNat 8 k, (lookup_ofNat hmod hbyte).trans (List.getElem?_eq_getElem hlen), by omega⟩
  · rintro ⟨b0, hb, hpos⟩
    obtain ⟨hlen, hget⟩ := List.getElem?_eq_some_iff.mp hb
    have hmod := Nat.mod_lt b0.toNat hpos
    have hbyte := (Nat.mod_le b0.toNat t.opmod).trans_lt b0.isLt
    exact ⟨b0.toNat % t.opmod, by omega, hget⟩

/-- The encoder answers exactly for the instructions whose operation is reachable (R109, R117). -/
theorem exists_encodeWith_iff {t : DecodeTable} {i : Instr} :
    (∃ bytes, encodeWith t i = some bytes) ↔ i.operation ∈ t.reachable := by
  simp only [← Option.isSome_iff_exists, encodeWith, DecodeTable.opcodeByte, Option.isSome_map, List.isSome_idxOf?]

/-- READ reg is the one operation of the reference table that no opcode byte selects (R109, D1). -/
theorem mem_reachable_referenceTable {op : Operation} : op ∈ referenceTable.reachable ↔ op ≠ .readReg := by
  cases op <;> decide

theorem operation_eq_readReg {i : Instr} : i.operation = .readReg ↔ ∃ r, i = .readReg r := by
  cases i <;> simp [Instr.operation]

/-! ## The statements -/

/-- Settles O1: the canonical opcode byte selects the operation, and the operand bytes are read back. -/
theorem decodeOfEncodeIsIdentity : Obligations.DecodeOfEncodeIsIdentity := by
  intro t i bytes rest h
  obtain ⟨b0, hb, rfl⟩ := Option.map_eq_some_iff.mp h
  rw [List.cons_append, decode_of_lookup (lookup_opcodeByte hb), decodeOperands_operandBytes]

/-- Settles O2: both sides say that the operation is reachable, which under the reference table only READ reg is
not. -/
theorem encodeDefinedExactlyOnReachableOperations : Obligations.EncodeDefinedExactlyOnReachableOperations := by
  refine ⟨fun t i => exists_encodeWith_iff.trans mem_reachable_iff, fun i => ?_⟩
  rw [← operation_eq_readReg, ← not_iff_not, ← ne_eq, Option.ne_none_iff_exists', encode, exists_encodeWith_iff,
    mem_reachable_referenceTable]

/-- Settles O3. -/
theorem everyOpcodeByteDecodes : Obligations.EveryOpcodeByteDecodes := by
  intro t b0 b1 b2 b3 h
  obtain ⟨i, rest, hd⟩ := decode_of_admissible h b0 b1 b2 b3
  exact ⟨i, rest, hd, i.operation.length_bounds⟩

/-- Settles O4: the opcode byte, and the operand bytes of the operation it selects. -/
theorem decodeLengthIsBytesConsumed : Obligations.DecodeLengthIsBytesConsumed := by
  intro t b0 bytes rest i h
  obtain ⟨op, hop, hd⟩ := lookup_of_decode_ok h
  obtain ⟨rfl, hlen, hrest⟩ := decodeOperands_length hd
  obtain ⟨n, hn⟩ := Nat.exists_eq_add_of_le' i.operation.length_bounds.1
  refine ⟨hop, ?_, hlen⟩
  rw [hrest, Instr.length, hn, Nat.add_sub_cancel, List.drop_succ_cons]

/-- Settles O5: a window that holds the operand bytes gives an instruction, and any other is out of range. -/
theorem truncatedWindowIsOutOfRange : Obligations.TruncatedWindowIsOutOfRange := by
  intro t b0 bytes op hop
  have hpos := op.length_bounds.1
  rw [decode_of_lookup hop, List.length_cons]
  obtain ⟨hlong, p, hd⟩ | ⟨hshort, hd⟩ := decodeOperands_needsBytes op bytes
  · exact iff_of_false (by rw [hd]; nofun) (by omega)
  · exact iff_of_true hd (by omega)

/-- Settles O8: nine closed decodings. -/
theorem specWordsDecode : Obligations.SpecWordsDecode :=
  ⟨rfl, rfl, rfl, rfl, rfl, rfl, rfl, rfl, rfl⟩

end Sys2Proof
end

section
/-! The machine invariant: reset establishes it, every step keeps it, and under it no live machine is refused
(10_state.md section 8, 60_exceptions.md section 1). -/

namespace Sys2Proof

/-! ## Configurations -/

/-- What an admissible configuration gives (00_scope.md R5, 20_memory.md R66 to R69). -/
structure Config.Admissible (c : Config) : Prop where
  table : c.table.admissible = true
  romFile : c.romFile.wf = true
  nbanks_pos : 0 < c.nbanks
  banks_le : c.nbanks * bankSize ≤ c.imageSize

theorem Config.admissible_of_wf {c : Config} (h : c.wf = true) : c.Admissible := by
  simp only [Config.wf, Bool.and_eq_true, decide_eq_true_eq] at h
  obtain ⟨⟨⟨htable, hrom⟩, hpos⟩, hbanks⟩ := h
  exact ⟨htable, hrom, hpos, hbanks⟩

theorem Config.reference_wf : Config.reference.wf = true := by decide

end Sys2Proof

namespace Sys2Proof.Machine

/-! ## What the elementary changes keep -/

/-- A bank that exists under the variant may be mapped: the switch loads it, with a draw of its own (20_memory.md
R68). -/
theorem State.Inv.switchBank {s : State} (h : s.Inv) {n : Nat}
    (hn : s.cfg.variant = .preloaded → n < s.cfg.nbanks) : (Machine.switchBank s n).Inv :=
  { h with
    bank := rfl
    fresh := Nat.lt_succ_self s.draws
    curBank := hn }

/-- The invariant does not speak of IP. -/
theorem State.Inv.withIp {s : State} (h : s.Inv) (v : Word) : (s.withIp v).Inv := { h with }

/-- A byte that exists as a bank number may be stored in BankNum. -/
theorem State.Inv.withBankNum {s : State} (h : s.Inv) {v : Byte}
    (hv : s.cfg.variant = .preloaded → v.toNat < s.cfg.nbanks) : (s.withBankNum v).Inv :=
  { h with bankNum := hv }

/-- A byte write changes RAM alone, and keeps its form. -/
theorem State.Inv.writeByte {s : State} (h : s.Inv) (a : Word) (v : Byte) : (Machine.writeByte s a v).Inv := by
  have hram := writeByte_ram_wf a v h.ram
  obtain ⟨m, hm⟩ := writeByte_eq s a v
  rw [hm] at hram ⊢
  exact { h with ram := hram }

/-- Every elementary change of the state keeps the invariant. -/
theorem State.Inv.closed : Closed State.Inv where
  withA _ _ h := { h with }
  withB _ _ h := { h with }
  withX _ _ h := { h with }
  withY _ _ h := { h with }
  withSp _ _ h := { h with }
  withIp _ v h := h.withIp v
  withFlags _ _ h := { h with }
  writeByte _ a v h := h.writeByte a v
  setBank _ _ hv h := (h.withBankNum hv).switchBank hv
  nextBank _ hs h := h.switchBank fun hp => absurd (hs.symm.trans hp) (by decide)
  output _ _ h := { h with }
  takeInput _ _ _ _ h := { h with }
  drawInput _ h := { h with fresh := Nat.lt_succ_of_lt h.fresh }
  wait _ _ len hlen h := { h with pending := by simpa [pendingLengthOk] using hlen }
  resume _ h := { h with pending := rfl }

/-- The trace has grown, and the parameters and Halted are the same (00_scope.md R5, R11): what every change but a
reset and a fault keeps. -/
structure Extends (s t : State) : Prop where
  cfg : t.cfg = s.cfg
  halted : t.halted = s.halted
  trace : ∃ events, t.trace = s.trace ++ events

/-- A change that leaves the trace alone. -/
theorem Extends.of_eq {s t u : State} (h : Extends s t) (hc : u.cfg = t.cfg) (hh : u.halted = t.halted)
    (ht : u.trace = t.trace) : Extends s u :=
  ⟨hc.trans h.cfg, hh.trans h.halted, ht ▸ h.trace⟩

/-- A change that appends one event. -/
theorem Extends.of_append {s t u : State} (h : Extends s t) {e : Event} (hc : u.cfg = t.cfg)
    (hh : u.halted = t.halted) (ht : u.trace = t.trace ++ [e]) : Extends s u :=
  by
  obtain ⟨events, hevents⟩ := h.trace
  exact ⟨hc.trans h.cfg, hh.trans h.halted, events ++ [e], by rw [ht, hevents, List.append_assoc]⟩

/-- Every elementary change of the state at most extends the trace. -/
theorem Extends.closed (s : State) : Closed (Extends s) where
  withA _ _ h := h.of_eq rfl rfl rfl
  withB _ _ h := h.of_eq rfl rfl rfl
  withX _ _ h := h.of_eq rfl rfl rfl
  withY _ _ h := h.of_eq rfl rfl rfl
  withSp _ _ h := h.of_eq rfl rfl rfl
  withIp _ _ h := h.of_eq rfl rfl rfl
  withFlags _ _ h := h.of_eq rfl rfl rfl
  writeByte t a v h := by
    obtain ⟨m, hm⟩ := writeByte_eq t a v
    rw [hm]
    exact h.of_eq rfl rfl rfl
  setBank _ _ _ h := h.of_append rfl rfl rfl
  nextBank _ _ h := h.of_append rfl rfl rfl
  output _ _ h := h.of_append rfl rfl rfl
  takeInput _ _ _ _ h := h.of_eq rfl rfl rfl
  drawInput _ h := h.of_eq rfl rfl rfl
  wait _ _ _ _ h := h.of_eq rfl rfl rfl
  resume _ h := h.of_eq rfl rfl rfl

/-! ## What a call answers on a halted, a waiting and a live machine -/

theorem step_of_halted {s : State} (h : s.halted = true) : step s = .refused .halted := if_pos h

theorem resumeWithInput_of_halted {s : State} (h : s.halted = true) (text : List Byte) :
    resumeWithInput text s = .refused .halted := if_pos h

theorem resumeWithInput_of_not_pending {s : State} (hh : s.halted = false) (hp : s.pending = none)
    (text : List Byte) : resumeWithInput text s = .refused .notPending := by
  simp [resumeWithInput, hh, hp]

/-- A waiting READ stores the text at its target, ends its wait and advances IP past itself (44_io.md R205). -/
theorem resumeWithInput_of_pending {s : State} {p : PendingRead} (hh : s.halted = false) (hp : s.pending = some p)
    (text : List Byte) : resumeWithInput text s =
      .next (advanceIP p.len ((storeText s p.target text).withPending none)) := by
  simp [resumeWithInput, hh, hp]

/-- The environment answers every waiting READ (R205, log entry 8). -/
theorem resumeFromEnvironment_next {s : State} {p : PendingRead} (hh : s.halted = false) (hp : s.pending = some p) :
    ∃ t, resumeFromEnvironment s = .next t := by
  cases hin : s.inputs with
  | nil =>
    rw [resumeFromEnvironment_of_none_ready hin]
    exact ⟨_, resumeWithInput_of_pending (s := { s with draws := s.draws + 1 }) hh hp _⟩
  | cons text later =>
    rw [resumeFromEnvironment_of_ready hin]
    exact ⟨_, resumeWithInput_of_pending (s := { s with inputs := later }) hh hp _⟩

/-- A machine that answers a next state was not halted. -/
theorem not_halted_of_step_next {s t : State} (h : step s = .next t) : s.halted = false := by
  by_contra hh
  cases (step_of_halted (Bool.not_eq_false _ ▸ hh)).symm.trans h

/-- Under an admissible table the bytes at IP decode (30_encoding.md R112). -/
theorem exists_fetchInstr {s : State} (h : s.cfg.table.admissible = true) :
    ∃ i rest, fetchInstr s = .ok (i, rest) :=
  decode_of_admissible h _ _ _ _

/-! ## The statements -/

/-- Settles O12: by the elementary changes of which every step is made. -/
theorem stepKeepsInvariant : Obligations.StepKeepsInvariant := fun _ _ hs h => State.Inv.closed.step hs h

/-- Settles O14: bank 0 is mapped and stored in BankNum, and an admissible configuration has at least that one. -/
theorem everyResetMeetsInvariant : Obligations.EveryResetMeetsInvariant := by
  intro c draw inputs hc
  have hpos := (Config.admissible_of_wf hc).nbanks_pos
  exact
    { config := hc
      ram := Memory.ofCells_wf c.ramInit
      bank := rfl
      fresh := Nat.lt_succ_self draw
      bankNum := fun _ => hpos
      curBank := fun _ => hpos
      pending := rfl }

/-- Settles O13: the reference configuration is admissible. -/
theorem resetMeetsInvariant : Obligations.ResetMeetsInvariant :=
  everyResetMeetsInvariant Config.reference 0 [] Config.reference_wf

/-- Settles O15: a waiting machine is answered, and any other decodes an instruction, none of which is refused. -/
theorem stepNeverRefusesLiveMachine : Obligations.StepNeverRefusesLiveMachine := by
  intro s e hs hh hstep
  cases hp : s.pending with
  | some p =>
    obtain ⟨t, ht⟩ := resumeFromEnvironment_next hh hp
    rw [step_of_pending hh hp, ht] at hstep
    cases hstep
  | none =>
    obtain ⟨i, rest, hf⟩ := exists_fetchInstr (Config.admissible_of_wf hs.config).table
    rw [step_of_fetch hh hp hf] at hstep
    exact exec_ne_refused i s e hstep

/-- Settles O16: by the elementary changes of which every step is made. -/
theorem stepKeepsParametersAndTrace : Obligations.StepKeepsParametersAndTrace := by
  intro s s' h
  have hext : Extends s s' := (Extends.closed s).step ⟨rfl, rfl, [], (List.append_nil _).symm⟩ h
  exact ⟨hext.cfg, hext.halted.trans (not_halted_of_step_next h), hext.trace⟩

/-- Settles O9: the four addresses are those of the fetch. -/
theorem stepRunsDecodedInstruction : Obligations.StepRunsDecodedInstruction := by
  intro s i rest hh hp hd
  have hzero : fetchAddr s 0 = s.ip := BitVec.add_zero s.ip
  refine step_of_fetch (rest := rest) hh hp ?_
  rw [fetchInstr, fetchBytes, hzero]
  exact hd

/-- Settles O10. -/
theorem haltedEngineRefusesStepAndResume : Obligations.HaltedEngineRefusesStepAndResume := fun _ h =>
  ⟨step_of_halted h, resumeWithInput_of_halted h, rfl⟩

end Sys2Proof.Machine
end

section
/-! Loading an instruction from outside: the four placed bytes lie at four different addresses, so each is still there
when the next step fetches it (30_encoding.md sections 1 and 4). -/

namespace Sys2Proof.Machine

/-- A canonical store below a bound is one below any higher bound. -/
theorem Memory.within_le {m : Memory} {lo hi hi' : Nat} (h : m.within lo hi = true) (hle : hi ≤ hi') :
    m.within lo hi' = true := by
  induction m generalizing lo with
  | nil => rfl
  | cons c m ih =>
    simp only [Memory.within, Bool.and_eq_true, decide_eq_true_eq] at h ⊢
    obtain ⟨⟨⟨hlo, hhi⟩, hv⟩, hrest⟩ := h
    exact ⟨⟨⟨hlo, hhi.trans_le hle⟩, hv⟩, ih hrest⟩

/-- RAM and the bank buffer's cells are in form, so that a placed byte is read back. -/
structure StoresInForm (s : State) : Prop where
  ram : s.ram.wf = true
  bankCells : s.bankBuf.cells.within 0 bankSize = true

/-- A loaded bank holds the bytes of one bank and no more (20_memory.md R67, R69). -/
theorem State.Inv.storesInForm {s : State} (h : s.Inv) : StoresInForm s where
  ram := h.ram
  bankCells := by
    rw [h.bank]
    exact Memory.within_le (loadBank_cells_within _ _ (Config.admissible_of_wf h.config).romFile) (Nat.min_le_left _ _)

theorem StoresInForm.placeByte {s : State} (h : StoresInForm s) (a : Word) (v : Byte) :
    StoresInForm (Machine.placeByte s a v) := by
  obtain ⟨-, -, hram, hcells⟩ := placeByte_same (a := a) (v := v) h.ram h.bankCells
  exact ⟨hram, hcells⟩

theorem readByte_placeByte_same {s : State} (h : StoresInForm s) (a : Word) (v : Byte) :
    readByte (placeByte s a v) a = v :=
  (placeByte_same h.ram h.bankCells).1

theorem placeByte_ip (s : State) (a : Word) (v : Byte) : (placeByte s a v).ip = s.ip := by
  unfold placeByte
  split <;> rfl

/-- The addresses of an instruction's bytes depend on IP alone, which placing bytes leaves. -/
theorem fetchAddr_placeByte (s : State) (a : Word) (v : Byte) (k : Nat) :
    fetchAddr (placeByte s a v) k = fetchAddr s k := by
  rw [fetchAddr, fetchAddr, placeByte_ip]

/-- The addresses of one pass through the address space are different. -/
theorem fetchAddr_ne {s : State} {k l : Nat} (hkl : k < l) (hl : l < 65536) : fetchAddr s k ≠ fetchAddr s l := by
  unfold fetchAddr
  bv_omega

/-- Bytes placed elsewhere leave a byte of RAM or of the supplied part of the window as it was. -/
theorem readByte_placeBytes_other {s : State} {k : Nat} {vs : List Byte} {b : Word} (hs : supplied s b)
    (h : ∀ l, k ≤ l → l < k + vs.length → b ≠ fetchAddr s l) : readByte (placeBytes s k vs) b = readByte s b := by
  induction vs generalizing s k with
  | nil => rfl
  | cons v vs ih =>
    rw [List.length_cons] at h
    obtain ⟨hread, hs'⟩ := placeByte_other (v := v) (h k le_rfl (by omega)) hs
    refine (ih hs' fun l hkl hl => ?_).trans hread
    rw [fetchAddr_placeByte]
    exact h l (by omega) (by omega)

/-- Placed bytes are all read back where one pass through the address space holds them. -/
theorem readByte_placeBytes {s : State} {k : Nat} {vs : List Byte} (hs : StoresInForm s)
    (hlen : k + vs.length ≤ 65536) {j : Nat} (hj : j < vs.length) :
    readByte (placeBytes s k vs) (fetchAddr s (k + j)) = vs[j] := by
  induction vs generalizing s k j with
  | nil => cases hj
  | cons v vs ih =>
    rw [List.length_cons] at hlen
    cases j with
    | zero =>
      refine (readByte_placeBytes_other (supplied_placeByte s _ v) fun l hkl hl => ?_).trans
        (readByte_placeByte_same hs _ v)
      rw [fetchAddr_placeByte]
      exact fetchAddr_ne (by omega) (by omega)
    | succ j =>
      have hrest := ih (hs.placeByte (fetchAddr s k) v) (k := k + 1) (by omega) (Nat.lt_of_succ_lt_succ hj)
      rw [fetchAddr_placeByte, Nat.succ_add_eq_add_succ] at hrest
      exact hrest

theorem placeBytes_ip (s : State) (k : Nat) (vs : List Byte) : (placeBytes s k vs).ip = s.ip := by
  induction vs generalizing s k with
  | nil => rfl
  | cons v vs ih => exact (ih _ _).trans (placeByte_ip s _ v)

theorem withFetchWord_ip (s : State) (nbits w : Nat) : (s.withFetchWord nbits w).ip = s.ip := by
  rw [State.withFetchWord, State.withPending_ip, State.withHalted_ip, placeBytes_ip]

theorem readByte_withPending (s : State) (p : Option PendingRead) (a : Word) :
    readByte (s.withPending p) a = readByte s a := rfl

theorem readByte_withHalted (s : State) (h : Bool) (a : Word) : readByte (s.withHalted h) a = readByte s a := rfl

theorem fetchBytes_eq_map (s : State) :
    fetchBytes s = (List.range 4).map fun k => readByte s (fetchAddr s k) := rfl

/-- Each of the four bytes of the word is fetched after the placing. -/
theorem readByte_withFetchWord {s : State} (hs : StoresInForm s) (nbits w : Nat) {k : Nat}
    (hk : k < (fetchWordBytes nbits w).length) :
    readByte (s.withFetchWord nbits w) (fetchAddr (s.withFetchWord nbits w) k) = (fetchWordBytes nbits w)[k] := by
  have hlen : (fetchWordBytes nbits w).length = 4 := rfl
  have hplaced := readByte_placeBytes hs (k := 0) (by omega) hk
  rw [Nat.zero_add] at hplaced
  rw [fetchAddr, withFetchWord_ip, ← fetchAddr, State.withFetchWord, readByte_withPending, readByte_withHalted,
    hplaced]

/-- Settles O11: byte by byte. -/
theorem placedInstructionIsFetched : Obligations.PlacedInstructionIsFetched := by
  intro s nbits w hs
  refine ⟨?_, rfl, rfl⟩
  rw [fetchBytes_eq_map]
  refine List.ext_getElem (by rw [List.length_map, List.length_range]; rfl) fun k _ hk => ?_
  rw [List.getElem_map, List.getElem_range, readByte_withFetchWord hs.storesInForm nbits w hk]

end Sys2Proof.Machine
end

section
/-! When each fault is raised, and when a WRITE is stuck: exactly the ways that `exec_fault_cases` lists, each of which
is reached (60_exceptions.md section 1, 44_io.md section 2). -/

namespace Sys2Proof.Machine

/-! ## Illegal register indices -/

theorem exec_readReg (r : Byte) (s : State) :
    exec (.readReg r) s = withRegisterValue r s fun t => readText 2 t s := rfl

/-- Every instruction with a Register operand checks its index before anything else (D18). -/
theorem exec_of_illegal_operand {i : Instr} {r : Byte} (hi : i.registerOperand = some r) (hr : 7 < r.toNat)
    (s : State) : exec i s = .fault (.invalidRegister r (s.withHalted true)) := by
  cases i with
  | imm | pop => cases hi; exact completed_withRegister_illegal hr _ s _
  | lda | ldb | sta | stb | push | writeReg => cases hi; exact completed_withRegisterValue_illegal hr _ s _
  | jeReg => cases hi; exact exec_registerJump_illegal hr .equal s
  | jneReg => cases hi; exact exec_registerJump_illegal hr .notEqual s
  | jgtReg => cases hi; exact exec_registerJump_illegal hr .greaterThan s
  | jltReg => cases hi; exact exec_registerJump_illegal hr .lessThan s
  | jgeReg => cases hi; exact exec_registerJump_illegal hr .greaterThanOrEqualTo s
  | jleReg => cases hi; exact exec_registerJump_illegal hr .lessThanOrEqualTo s
  | readReg =>
    cases hi
    rw [exec_readReg, withRegisterValue_illegal (Reg.ofByte?_eq_none.mpr hr)]
  | nop | mov | add | sub | mul | div | and | or | xor | not | cmp => cases hi
  | jeAddr | jneAddr | jgtAddr | jltAddr | jgeAddr | jleAddr | writeAddr | readAddr => cases hi

/-- Settles O18: an illegal index always faults, and nothing else raises InvalidRegister. -/
theorem invalidRegisterExactlyOnBadOperand : Obligations.InvalidRegisterExactlyOnBadOperand := by
  refine fun i s r => ⟨fun ⟨t, h⟩ => ?_, fun ⟨hi, hr⟩ => ⟨_, exec_of_illegal_operand hi hr s⟩⟩
  obtain ⟨r', hi, hr, hf⟩ | ⟨_, -, -, -, hf⟩ | ⟨_, -, -, hf⟩ := exec_fault_cases h
  case inl =>
    cases hf
    exact ⟨hi, Reg.ofByte?_eq_none.mp hr⟩
  case inr.inl => cases hf
  case inr.inr => cases hf

/-! ## Bank numbers out of range -/

/-- Whether an instruction writes the word `w` to BankNum (10_state.md R27). -/
def writesBankNum (i : Instr) (s : State) (w : Word) : Prop :=
  i = .imm 6#8 w ∨ (∃ src, i = .mov .BankNum src ∧ w = getReg s src) ∨ (i = .pop 6#8 ∧ w = readStack s s.sp)

/-- Such an instruction is the write to BankNum, completed. -/
theorem exec_of_writesBankNum {i : Instr} {s : State} {w : Word} (h : writesBankNum i s w) :
    exec i s = completed i.length (setReg s .BankNum w) := by
  obtain rfl | ⟨src, rfl, rfl⟩ | ⟨rfl, rfl⟩ := h <;> rfl

/-- Settles O19: a Preloaded write of NBANKS or more always faults, and nothing else raises OutOfRangeBank. -/
theorem outOfRangeBankExactlyOnBadBank : Obligations.OutOfRangeBankExactlyOnBadBank := by
  refine fun i s v => ⟨fun ⟨t, h⟩ => ?_, fun ⟨hv, w, hw, hval, hb⟩ => ⟨s.withHalted true, ?_⟩⟩
  · obtain ⟨_, -, -, hf⟩ | ⟨w, hw, hv, hb, hf⟩ | ⟨_, -, -, hf⟩ := exec_fault_cases h
    case inl => cases hf
    case inr.inl =>
      rw [loByte_toNat] at hb hf
      exact ⟨hv, w, hw, (Fault.outOfRangeBank.inj hf).1, hb⟩
    case inr.inr => cases hf
  · rw [exec_of_writesBankNum hw, setReg_bankNum_outOfRange hv hb, completed_fault, hval]

/-! ## A WRITE that never completes -/

/-- A scan of the whole address space that does not end has met no zero byte anywhere (44_io.md R201). -/
theorem no_zero_of_scanText_none {s : State} {t : Word} (h : scanText s t scanLimit = none) (a : Word) :
    readByte s a ≠ 0x00#8 := by
  have hoff : t + BitVec.ofNat 16 (a - t).toNat = a := by
    rw [BitVec.ofNat_toNat, BitVec.setWidth_eq, BitVec.add_comm, BitVec.sub_add_cancel]
  exact hoff ▸ scanText_none h (a - t).toNat (a - t).isLt

/-- Settles O20: without a zero byte every WRITE is stuck, and only such a WRITE is. -/
theorem stuckExactlyOnWriteWithoutZero : Obligations.StuckExactlyOnWriteWithoutZero := by
  refine fun i s t => ⟨fun h => ?_, fun ⟨hi, hz⟩ => ?_⟩
  · obtain ⟨_, -, -, hf⟩ | ⟨_, -, -, -, hf⟩ | ⟨t', hi, hscan, hf⟩ := exec_fault_cases h
    case inl => cases hf
    case inr.inl => cases hf
    case inr.inr =>
      cases hf
      exact ⟨hi, no_zero_of_scanText_none hscan⟩
  · obtain rfl | ⟨r, g, rfl, hg, rfl⟩ := hi
    · rw [exec_writeAddr, writeText_of_no_zero hz, completed_fault]
    · rw [exec_writeReg, withRegisterValue_legal hg, writeText_of_no_zero hz, completed_fault]

end Sys2Proof.Machine
end

section
/-! Where sequential execution goes: around RAM, through the ROM window, and past its end into RAM or into the next
bank; and what the window shows of a mapped bank (10_state.md section 4, 20_memory.md section 2). -/

namespace Sys2Proof

/-- The stored cells of a ROM file in form are its bytes, and zeros past its end (20_memory.md R66). -/
theorem RomFile.read_cells {f : RomFile} (h : f.wf = true) (i : Nat) :
    Machine.Memory.read f.cells i = (f.byte? i).getD 0x00#8 := by
  unfold RomFile.byte?
  split
  · rfl
  · exact Machine.Memory.read_beyond h (by omega)

end Sys2Proof

namespace Sys2Proof.Machine

/-! ## Sequential execution in RAM -/

/-- In RAM `nextIP()` is the successor modulo RAM_SIZE (10_state.md R33). -/
theorem nextIP_of_ram {s : State} (h : s.ip.toNat < 0x8000) :
    nextIP s = s.withIp (BitVec.ofNat 16 ((s.ip.toNat + 1) % 0x8000)) := by
  by_cases h7 : s.ip = 0x7FFF#16
  · rw [nextIP_at_ramEnd h7, h7]
    rfl
  · have hF : s.ip ≠ 0xFFFF#16 := by bv_omega
    have hadd : s.ip + 1#16 = BitVec.ofNat 16 ((s.ip.toNat + 1) % 0x8000) := by bv_omega
    rw [nextIP_inside h7 hF, hadd]

/-- In RAM an advance by `n` adds `n` modulo RAM_SIZE, under both variants (R34). -/
theorem advanceIP_of_ram (n : Nat) {s : State} (h : s.ip.toNat < 0x8000) :
    advanceIP n s = s.withIp (BitVec.ofNat 16 ((s.ip.toNat + n) % 0x8000)) := by
  induction n generalizing s with
  | zero =>
    have hself : BitVec.ofNat 16 ((s.ip.toNat + 0) % 0x8000) = s.ip := by bv_omega
    rw [hself]
    rfl
  | succ n ih =>
    have hlt : (s.ip.toNat + 1) % 0x8000 < 0x8000 := Nat.mod_lt _ (by decide)
    have hip : (BitVec.ofNat 16 ((s.ip.toNat + 1) % 0x8000)).toNat = (s.ip.toNat + 1) % 0x8000 :=
      Nat.mod_eq_of_lt (by omega)
    have hsum : ((s.ip.toNat + 1) % 0x8000 + n) % 0x8000 = (s.ip.toNat + (n + 1)) % 0x8000 := by omega
    rw [advanceIP, nextIP_of_ram h, ih (by rwa [State.withIp_ip, hip]), State.withIp_ip, hip, hsum]
    rfl

/-- Settles O29. -/
theorem sequentialCodeStaysInRam : Obligations.SequentialCodeStaysInRam := fun n _ h => advanceIP_of_ram n h

/-! ## Sequential execution in the ROM window -/

theorem advanceIP_add (m n : Nat) (s : State) : advanceIP (m + n) s = advanceIP n (advanceIP m s) := by
  rw [advanceIP_eq_iterate, advanceIP_eq_iterate, advanceIP_eq_iterate, Nat.add_comm, Function.iterate_add_apply]

theorem add_ofNat_eq_ofNat (a : Word) (n : Nat) : a + BitVec.ofNat 16 n = BitVec.ofNat 16 (a.toNat + n) := by
  rw [BitVec.ofNat_add, BitVec.ofNat_toNat, BitVec.setWidth_eq]

/-- An advance past 0xFFFF goes straight to 0xFFFF, makes the step of R33 from there, and goes on. -/
theorem advanceIP_past_last {n : Nat} {s : State} (hrom : 0x8000 ≤ s.ip.toNat) (hpast : 0xFFFF < s.ip.toNat + n) :
    advanceIP n s = advanceIP (s.ip.toNat + n - 0x10000) (nextIP (s.withIp 0xFFFF#16)) := by
  have hlt := s.ip.isLt
  have hlast : advanceIP (0xFFFF - s.ip.toNat) s = s.withIp 0xFFFF#16 := by
    rw [advanceIP_straight _ _ (by omega), add_ofNat_eq_ofNat, Nat.add_sub_of_le (by omega)]
  have hsplit : n = 0xFFFF - s.ip.toNat + (s.ip.toNat + n - 0x10000 + 1) := by omega
  conv_lhs => rw [hsplit, advanceIP_add, hlast, advanceIP]

/-- Settles O30: before the last address the advance is straight; past it the rest is straight from address 0, or from
the start of the next bank. -/
theorem advanceInsideRom : Obligations.AdvanceInsideRom := by
  intro n s hrom
  refine ⟨fun hle => ?_, fun hpast hn hv => ?_, fun hpast hn hv => ?_⟩
  · rw [advanceIP_straight n s (.inr ⟨hrom, hle⟩), add_ofNat_eq_ofNat]
    rfl
  · have hnext : nextIP (s.withIp 0xFFFF#16) = s.withIp 0x0000#16 := nextIP_at_last_preloaded rfl hv
    have hlt := s.ip.isLt
    rw [advanceIP_past_last hrom hpast, hnext, advanceIP_straight, State.withIp_ip, BitVec.zero_add]
    · rfl
    · exact .inl (by rw [State.withIp_ip, BitVec.toNat_ofNat]; omega)
  · have hnext : nextIP (s.withIp 0xFFFF#16) = (switchBank s (s.curBank + 1)).withIp 0x8000#16 :=
      nextIP_at_last_streaming rfl hv
    have hlt := s.ip.isLt
    have hsum : 0x8000 + (s.ip.toNat + n - 0x10000) = s.ip.toNat + n - 0x8000 := by omega
    rw [advanceIP_past_last hrom hpast, hnext, advanceIP_straight, State.withIp_ip, add_ofNat_eq_ofNat,
      BitVec.toNat_ofNat, Nat.mod_eq_of_lt (by decide), hsum]
    · rfl
    · exact .inr (by rw [State.withIp_ip, BitVec.toNat_ofNat]; omega)

/-! ## The window onto a bank -/

/-- A window address reads the bank buffer at its offset (20_memory.md R61). -/
theorem readByte_window_offset (s : State) {o : Nat} (ho : o < 0x8000) :
    readByte s (BitVec.ofNat 16 (0x8000 + o)) = BankBuf.read s.bankBuf o := by
  have haddr : (BitVec.ofNat 16 (0x8000 + o)).toNat = ramSize + o := Nat.mod_eq_of_lt (by omega)
  rw [readByte_window (by omega), haddr, Nat.add_sub_cancel_left]

/-- After a switch the window shows what was loaded (R68). -/
theorem readByte_switchBank_window (s : State) (n : Nat) {o : Nat} (ho : o < 0x8000) :
    readByte (switchBank s n) (BitVec.ofNat 16 (0x8000 + o)) =
      if o < bankSupplied s.cfg n then Memory.read s.cfg.romFile.cells (n * bankSize + o)
      else Config.shortFill s.draws o := by
  rw [readByte_window_offset _ ho, switchBank_bankBuf, loadBank_read]

/-- A bank inside the image is supplied whole (R66, R67). -/
theorem bankSupplied_preloaded {c : Config} (hc : c.Admissible) (hv : c.variant = .preloaded) {n : Nat}
    (hn : n < c.nbanks) : bankSupplied c n = bankSize := by
  have hext : c.romExtent = c.imageSize := by simp only [Config.romExtent, hv]
  have hbank : (n + 1) * bankSize ≤ c.imageSize := (Nat.mul_le_mul_right bankSize hn).trans hc.banks_le
  rw [Nat.add_one_mul] at hbank
  rw [bankSupplied, hext]
  exact Nat.min_eq_left (by omega)

/-- A Streaming bank is supplied as far as the file goes (R69). -/
theorem lt_bankSupplied_streaming {c : Config} (hv : c.variant = .streaming) {n o : Nat} (ho : o < bankSize) :
    o < bankSupplied c n ↔ n * bankSize + o < c.romFile.size := by
  have hext : c.romExtent = c.romFile.size := by simp only [Config.romExtent, hv]
  rw [bankSupplied, hext, lt_min_iff, Nat.lt_sub_iff_add_lt']
  exact and_iff_right ho

/-- Settles O33: a Preloaded bank is supplied whole, a Streaming one as far as the file goes. -/
theorem bankWindowShowsRom : Obligations.BankWindowShowsRom := by
  intro s n o ho hc
  have hadm := Config.admissible_of_wf hc
  rw [readByte_switchBank_window s n ho]
  refine ⟨fun hv hn => ?_, fun hv => ?_⟩
  · rw [bankSupplied_preloaded hadm hv hn, if_pos (show o < bankSize from ho), RomFile.read_cells hadm.romFile]
    rfl
  · rw [RomFile.byte?, if_congr (lt_bankSupplied_streaming hv ho) rfl rfl, apply_ite (Option.getD · _)]
    rfl

end Sys2Proof.Machine
end

section
/-! A jump right after CMP (43_control_transfer.md R193). -/

namespace Sys2Proof.Machine

/-- CMP replaces the three comparison bits by one of three values, by the unsigned order of the words (42_alu.md
R169). -/
theorem compareFlags_cases (f : Byte) (a b : Word) :
    (a.toNat = b.toNat ∧ (compareFlags f a b).toNat = f.toNat / 8 * 8 + 1) ∨
      (b.toNat < a.toNat ∧ (compareFlags f a b).toNat = f.toNat / 8 * 8 + 2) ∨
        (a.toNat < b.toNat ∧ (compareFlags f a b).toNat = f.toNat / 8 * 8 + 4) := by
  have hf := f.isLt
  rw [compareFlags_eq, BitVec.toNat_ofNat]
  obtain hlt | heq | hgt := Nat.lt_trichotomy a.toNat b.toNat
  · rw [if_neg (by omega), if_neg (by omega)]
    omega
  · rw [if_pos heq]
    omega
  · rw [if_neg (by omega), if_pos hgt]
    omega

/-- The Flags that CMP leaves. -/
theorem exec_cmp_flags {s s' : State} (h : exec .cmp s = .next s') :
    s'.flags = compareFlags s.flags (readStack s (s.sp - 4#15)) (readStack s (s.sp - 2#15)) := by
  rw [exec_cmp, prevSP4_eq_sub, prevSP2_eq_sub] at h
  cases h
  rw [(advanceIP_kept 1 _).flags, State.withSp_flags, State.withFlags_flags]

/-- Settles O49: after CMP Flags modulo 8 is 1, 2 or 4, which are the patterns of three of the six kinds. -/
theorem jumpsAfterCompare : Obligations.JumpsAfterCompare := by
  intro s s' t a b hcmp ha hb
  have hflags := compareFlags_cases s.flags a b
  rw [ha, hb, ← exec_cmp_flags hcmp, ← ha, ← hb] at hflags
  have jump : ∀ (k : JumpKind) (taken : Prop) [Decidable taken], (s'.flags.toNat % 8 = k.pattern.toNat ↔ taken) →
      exec (addressJump k t) s' = .next (if taken then s'.withIp t else advanceIP 3 s') := fun k _ _ h => by
    rw [exec_addressJump_eq, if_congr h rfl rfl]
  have never : ∀ k : JumpKind, s'.flags.toNat % 8 ≠ k.pattern.toNat →
      exec (addressJump k t) s' = .next (advanceIP 3 s') := fun k h => by
    rw [exec_addressJump_eq, if_neg h]
  refine ⟨jump .equal _ (Iff.trans ?_ BitVec.toNat_inj), jump .greaterThan _ ?_, jump .lessThan _ ?_,
    never .notEqual ?_, never .greaterThanOrEqualTo ?_, never .lessThanOrEqualTo ?_⟩
  all_goals
    simp only [JumpKind.pattern, BitVec.toNat_ofNat]
    omega

end Sys2Proof.Machine
end

section
/-! READ: the input text and its zero byte in memory, and the wait for them (44_io.md section 3). -/

namespace Sys2Proof.Machine

/-! ## The stored text -/

/-- Different offsets within one pass through the address space are different addresses. -/
theorem add_ofNat_ne_self (t : Word) {k : Nat} (hpos : 0 < k) (hlt : k < 65536) : t ≠ t + BitVec.ofNat 16 k := by
  bv_omega

/-- The text and its zero byte leave every other address alone (44_io.md R203). -/
theorem readByte_storeText_other {s : State} {t b : Word} {text : List Byte}
    (h : ∀ k : Nat, k ≤ text.length → b ≠ t + BitVec.ofNat 16 k) : readByte (storeText s t text) b = readByte s b := by
  have hfirst : b ≠ t := by simpa using h 0 (Nat.zero_le _)
  induction text generalizing s t with
  | nil => exact readByte_writeByte_other hfirst
  | cons c text ih =>
    have hrest : ∀ k : Nat, k ≤ text.length → b ≠ t + 1#16 + BitVec.ofNat 16 k := fun k hk => by
      rw [← add_ofNat_succ]
      exact h (k + 1) (Nat.succ_le_succ hk)
    exact (ih hrest (by simpa using hrest 0 (Nat.zero_le _))).trans (readByte_writeByte_other hfirst)

/-- In RAM each byte of a text shorter than the address space is read back, and after the text its zero byte: no later
byte of it is stored at the same address (R203, D17). -/
theorem readByte_storeText {s : State} {t : Word} {text : List Byte} (hm : s.ram.wf = true)
    (hlen : text.length < 65536) {k : Nat} (hk : k ≤ text.length) (hram : (t + BitVec.ofNat 16 k).toNat < ramSize) :
    readByte (storeText s t text) (t + BitVec.ofNat 16 k) = text.getD k 0x00#8 := by
  induction text generalizing s t k with
  | nil =>
    obtain rfl := Nat.le_zero.mp hk
    rw [BitVec.add_zero] at hram ⊢
    exact readByte_writeByte_same hm hram
  | cons c text ih =>
    rw [List.length_cons] at hlen hk
    cases k with
    | zero =>
      rw [BitVec.add_zero] at hram ⊢
      rw [storeText]
      refine (readByte_storeText_other fun j hj => ?_).trans (readByte_writeByte_same hm hram)
      rw [← add_ofNat_succ]
      exact add_ofNat_ne_self t (Nat.succ_pos j) (by omega)
    | succ k =>
      rw [add_ofNat_succ] at hram ⊢
      exact ih (writeByte_ram_wf t c hm) (by omega) (by omega) hram

/-! ## A READ with and without a string ready -/

theorem exec_readAddr (t : Word) (s : State) : exec (.readAddr t) s = readText 3 t s := rfl

/-- READ reg reads to the register's value (R204). -/
theorem exec_readReg_legal {r : Byte} {g : Reg} (hg : Reg.ofByte? r = some g) (s : State) :
    exec (.readReg r) s = readText 2 (getReg s g) s := by
  rw [exec_readReg, withRegisterValue_legal hg]

/-- A string that is ready completes a READ in one step (log entry 8). -/
theorem readText_of_ready {s : State} {text : List Byte} {later : List (List Byte)} (h : s.inputs = text :: later)
    (n : Nat) (t : Word) : readText n t s = .next (advanceIP n (storeText { s with inputs := later } t text)) := by
  rw [readText, h]
  rfl

/-- Without one the READ waits at its own address (R205). -/
theorem readText_of_none_ready {s : State} (h : s.inputs = []) (n : Nat) (t : Word) :
    readText n t s = .next (s.withPending (some { target := t, len := n })) := by
  rw [readText, h]

/-- Settles O52: the state after the stores is the witness; the stores change RAM alone. -/
theorem readStoresTheInputText : Obligations.ReadStoresTheInputText := by
  intro s text later t hin
  obtain ⟨m, hm⟩ := storeText_eq { s with inputs := later } t text
  refine ⟨storeText { s with inputs := later } t text, by rw [hm]; rfl, ⟨m, hm⟩, readText_of_ready hin 3 t, ?_,
    fun hram hlen => ⟨storeText_ram_wf t text hram, fun k hk hlow => ?_, fun hlow => ?_, fun b hb => ?_⟩⟩
  · rintro r g hg rfl
    rw [exec_readReg_legal hg, readText_of_ready hin]
  · rw [readByte_storeText (s := { s with inputs := later }) hram hlen hk.le hlow, List.getD_eq_getElem _ _ hk]
  · rw [readByte_storeText (s := { s with inputs := later }) hram hlen le_rfl hlow, List.getD_eq_default _ _ le_rfl]
  · exact readByte_storeText_other hb

/-! ## The wait and the resumption -/

theorem writeByte_withPending (s : State) (a : Word) (v : Byte) (p : Option PendingRead) :
    writeByte (s.withPending p) a v = (writeByte s a v).withPending p := by
  unfold writeByte
  split <;> rfl

/-- The stores of a READ do not depend on whether it has waited. -/
theorem storeText_withPending (s : State) (t : Word) (text : List Byte) (p : Option PendingRead) :
    storeText (s.withPending p) t text = (storeText s t text).withPending p := by
  induction text generalizing s t with
  | nil => exact writeByte_withPending s t _ p
  | cons c text ih => rw [storeText, writeByte_withPending, ih, storeText]

/-- The stores leave Pending alone, so a machine that does not wait goes on not to. -/
theorem storeText_withPending_none {s : State} (hp : s.pending = none) (t : Word) (text : List Byte) :
    (storeText s t text).withPending none = storeText s t text := by
  obtain ⟨m, hm⟩ := storeText_eq s t text
  rw [hm, ← hp]
  rfl

/-- A READ that waited completes as the READ that found its string ready (R205). -/
theorem resumeWithInput_of_waiting_read {s : State} (hh : s.halted = false) (hp : s.pending = none)
    (hin : s.inputs = []) (p : PendingRead) (text : List Byte) :
    resumeWithInput text (s.withPending (some p)) = readText p.len p.target { s with inputs := [text] } := by
  have hready : readText p.len p.target { s with inputs := [text] } =
      .next (advanceIP p.len (storeText { s with inputs := [] } p.target text)) := readText_of_ready rfl _ _
  have hstores : (storeText (s.withPending (some p)) p.target text).withPending none =
      storeText s p.target text := by
    rw [storeText_withPending]
    exact storeText_withPending_none hp p.target text
  have hresume := resumeWithInput_of_pending (s := s.withPending (some p)) hh rfl text
  rw [hresume, hstores, hready, ← hin]

/-- Settles O53: the wait, its resumption, and the two calls that are not answered by one. -/
theorem readWaitsAndResumes : Obligations.ReadWaitsAndResumes := by
  intro s t r text hh hp
  refine ⟨fun hin => ⟨⟨_, readText_of_none_ready hin 3 t, rfl, ?_⟩, fun g hg => ?_⟩, fun hr => ?_,
    resumeWithInput_of_not_pending hh hp text⟩
  · exact resumeWithInput_of_waiting_read hh hp hin _ text
  · rw [exec_readReg_legal hg, exec_readReg_legal hg, readText_of_none_ready hin]
    exact ⟨_, rfl, rfl, resumeWithInput_of_waiting_read hh hp hin _ text⟩
  · exact exec_of_illegal_operand rfl hr s

end Sys2Proof.Machine
end

section
/-! The frames of the instructions: what each leaves of the registers, of Flags and of memory (10_state.md sections 2 to
5, 20_memory.md sections 1 and 4). -/

namespace Sys2Proof.Machine

/-! ## Registers -/

section
variable {r : Reg} (s : State)

theorem getReg_withA (v : Word) (hr : r ≠ .A) : getReg (s.withA v) r = getReg s r := by
  cases r with
  | A => exact absurd rfl hr
  | _ => rfl

theorem getReg_withB (v : Word) (hr : r ≠ .B) : getReg (s.withB v) r = getReg s r := by
  cases r with
  | B => exact absurd rfl hr
  | _ => rfl

theorem getReg_withX (v : Word) (hr : r ≠ .X) : getReg (s.withX v) r = getReg s r := by
  cases r with
  | X => exact absurd rfl hr
  | _ => rfl

theorem getReg_withY (v : Word) (hr : r ≠ .Y) : getReg (s.withY v) r = getReg s r := by
  cases r with
  | Y => exact absurd rfl hr
  | _ => rfl

theorem getReg_withSp (v : StackPtr) (hr : r ≠ .SP) : getReg (s.withSp v) r = getReg s r := by
  cases r with
  | SP => exact absurd rfl hr
  | _ => rfl

theorem getReg_withIp (v : Word) (hr : r ≠ .IP) : getReg (s.withIp v) r = getReg s r := by
  cases r with
  | IP => exact absurd rfl hr
  | _ => rfl

theorem getReg_withFlags (v : Byte) (hr : r ≠ .Flags) : getReg (s.withFlags v) r = getReg s r := by
  cases r with
  | Flags => exact absurd rfl hr
  | _ => rfl

/-- A bank switch changes no register, so that of BankNum with its reload changes BankNum alone (10_state.md R27). -/
theorem getReg_switchBank_withBankNum (v : Byte) (n : Nat) (hr : r ≠ .BankNum) :
    getReg (switchBank (s.withBankNum v) n) r = getReg s r := by
  cases r with
  | BankNum => exact absurd rfl hr
  | _ => rfl

/-- No register is part of RAM, nor of what the environment has ready. -/
theorem getReg_withRam_inputs (m : Memory) (later : List (List Byte)) :
    getReg { s with ram := m, inputs := later } r = getReg s r := by
  cases r <;> rfl

end

/-- What the effect of an instruction keeps besides memory and the mapped bank. -/
structure RegistersKept (i : Instr) (s t : State) : Prop where
  regs : ∀ r : Reg, r ∉ destinations i → getReg t r = getReg s r
  halted : t.halted = s.halted
  cfg : t.cfg = s.cfg
  io : (∀ a, i ≠ .readAddr a) → (∀ r, i ≠ .readReg r) → t.pending = s.pending ∧ t.inputs = s.inputs

/-- A store changes RAM alone, so it keeps all of it. -/
theorem RegistersKept.withRam (i : Instr) (s : State) (m : Memory) : RegistersKept i s (s.withRam m) :=
  ⟨fun _ _ => getReg_withRam_inputs s m s.inputs, rfl, rfl, fun _ _ => ⟨rfl, rfl⟩⟩

/-- A write of the one destination register keeps all of it (10_state.md R25 to R28). -/
theorem RegistersKept.of_setReg {i : Instr} {s t : State} {d : Reg} {v : Word} (hd : destinations i = [d])
    (h : setReg s d v = .next t) : RegistersKept i s t := by
  have hne : ∀ {r : Reg}, r ∉ destinations i → r ≠ d := fun hr => by rwa [hd, List.mem_singleton] at hr
  cases d with
  | A => cases h; exact ⟨fun r hr => getReg_withA s v (hne hr), rfl, rfl, fun _ _ => ⟨rfl, rfl⟩⟩
  | B => cases h; exact ⟨fun r hr => getReg_withB s v (hne hr), rfl, rfl, fun _ _ => ⟨rfl, rfl⟩⟩
  | X => cases h; exact ⟨fun r hr => getReg_withX s v (hne hr), rfl, rfl, fun _ _ => ⟨rfl, rfl⟩⟩
  | Y => cases h; exact ⟨fun r hr => getReg_withY s v (hne hr), rfl, rfl, fun _ _ => ⟨rfl, rfl⟩⟩
  | SP => cases h; exact ⟨fun r hr => getReg_withSp s _ (hne hr), rfl, rfl, fun _ _ => ⟨rfl, rfl⟩⟩
  | IP => cases h; exact ⟨fun r hr => getReg_withIp s v (hne hr), rfl, rfl, fun _ _ => ⟨rfl, rfl⟩⟩
  | Flags => cases h; exact ⟨fun r hr => getReg_withFlags s _ (hne hr), rfl, rfl, fun _ _ => ⟨rfl, rfl⟩⟩
  | BankNum =>
    obtain ⟨hb, -⟩ | ⟨-, -, he⟩ | ⟨-, -, -, he⟩ := setReg_cases s .BankNum v
    · exact absurd rfl hb
    · cases he.symm.trans h
      exact ⟨fun r hr => getReg_switchBank_withBankNum s _ _ (hne hr), rfl, rfl, fun _ _ => ⟨rfl, rfl⟩⟩
    · cases he.symm.trans h

/-- A MathOperation writes SP and RAM (42_alu.md R160). -/
theorem destinations_of_isMath {i : Instr} (h : isMath i) : destinations i = [.SP] := by
  obtain rfl | rfl | rfl | rfl | rfl | rfl | rfl := h <;> rfl

/-- The effect of an instruction writes no register but its destinations. -/
theorem Body.registersKept {i : Instr} {s t : State} (h : Body s i t) : RegistersKept i s t := by
  cases h with
  | imm hg ht => exact .of_setReg (by simp [destinations, hg]) ht
  | mov ht => exact .of_setReg rfl ht
  | pop hg ht => exact .of_setReg (by simp [destinations, hg]) ht
  | lda =>
    exact ⟨fun r hr => getReg_withA s _ (List.ne_of_not_mem_cons hr), rfl, rfl, fun _ _ => ⟨rfl, rfl⟩⟩
  | ldb =>
    exact ⟨fun r hr => getReg_withB s _ (List.ne_of_not_mem_cons hr), rfl, rfl, fun _ _ => ⟨rfl, rfl⟩⟩
  | @sta r g => obtain ⟨m, hm⟩ := writeWord_eq s (getReg s g) s.a; exact hm ▸ .withRam _ s m
  | @stb r g => obtain ⟨m, hm⟩ := writeWord_eq s (getReg s g) s.b; exact hm ▸ .withRam _ s m
  | @push r g => obtain ⟨m, hm⟩ := writeStack_eq s s.sp (getReg s g); exact hm ▸ .withRam _ s m
  | @math _ v hi =>
    obtain ⟨m, hm⟩ := writeStack_eq s (prevSP4 s.sp) v
    rw [hm]
    refine ⟨fun r hr => ?_, rfl, rfl, fun _ _ => ⟨rfl, rfl⟩⟩
    rw [destinations_of_isMath hi, List.mem_singleton] at hr
    exact (getReg_withSp _ _ hr).trans (getReg_withRam_inputs s m s.inputs)
  | @not v =>
    obtain ⟨m, hm⟩ := writeStack_eq s (prevSP2 s.sp) v
    rw [hm]
    exact .withRam _ s m
  | cmp =>
    refine ⟨fun r hr => ?_, rfl, rfl, fun _ _ => ⟨rfl, rfl⟩⟩
    obtain ⟨hsp, hflags⟩ : r ≠ .SP ∧ r ≠ .Flags := by simpa [destinations] using hr
    exact (getReg_withSp _ _ hsp).trans (getReg_withFlags s _ hflags)
  | @read _ a text later hi =>
    obtain ⟨m, hm⟩ := storeText_eq { s with inputs := later } a text
    rw [hm]
    refine ⟨fun r _ => getReg_withRam_inputs s m later, rfl, rfl, fun ha hr => ?_⟩
    obtain rfl | ⟨r, g, rfl, -⟩ := hi
    · exact absurd rfl (ha a)
    · exact absurd rfl (hr r)
  | nop | jump | writeAddr | writeReg => exact ⟨fun r _ => by cases r <;> rfl, rfl, rfl, fun _ _ => ⟨rfl, rfl⟩⟩

/-- Settles O57: the effect writes the destinations alone, and the advance or the jump after it IP. -/
theorem registerFrame : Obligations.RegisterFrame := by
  intro i s s' h
  obtain ⟨t, ht, rfl⟩ | ⟨-, t, rfl⟩ | ⟨t, hi, -, rfl⟩ := exec_next_cases h
  · have hk := ht.registersKept
    have ha := advanceIP_kept i.length t
    refine ⟨fun r hip hr => (ha.getReg hip).trans (hk.regs r hr), ha.halted.trans hk.halted, ha.cfg.trans hk.cfg,
      fun hra hrr => ?_⟩
    obtain ⟨hpending, hinputs⟩ := hk.io hra hrr
    exact ⟨ha.pending.trans hpending, ha.inputs.trans hinputs⟩
  · exact ⟨fun r hip _ => getReg_withIp s t hip, rfl, rfl, fun _ _ => ⟨rfl, rfl⟩⟩
  · refine ⟨fun r _ _ => by cases r <;> rfl, rfl, rfl, fun hra hrr => ?_⟩
    obtain rfl | ⟨r, g, rfl, -⟩ := hi
    · exact absurd rfl (hra t)
    · exact absurd rfl (hrr r)

/-! ## Flags -/

/-- Index 7 is Flags (10_state.md R22). -/
theorem Reg.ofByte?_eq_Flags {r : Byte} : Reg.ofByte? r = some .Flags ↔ r = 7#8 := by
  revert r
  decide

/-- The instructions that have Flags among their destinations (R38). -/
theorem Flags_mem_destinations {i : Instr} : .Flags ∈ destinations i ↔
    i = .cmp ∨ (∃ v, i = .imm 7#8 v) ∨ (∃ src, i = .mov .Flags src) ∨ i = .pop 7#8 := by
  cases i with
  | imm r v => simp [destinations, Reg.ofByte?_eq_Flags]
  | mov dst src => simp [destinations, eq_comm]
  | pop r => simp [destinations, Reg.ofByte?_eq_Flags]
  | _ => simp [destinations]

/-- Flags is the register read as its zero-extension, so equal reads are equal bytes (R24, D8). -/
theorem flags_eq_of_getReg_eq {s t : State} (h : getReg t .Flags = getReg s .Flags) : t.flags = s.flags := by
  have hlow := congrArg (BitVec.setWidth 8) h
  simpa [getReg] using hlow

/-- Settles O56: an instruction without Flags among its destinations keeps it, and CMP replaces three bits. -/
theorem flagsChangeOnlyAsListed : Obligations.FlagsChangeOnlyAsListed := by
  intro i s s' h
  refine ⟨fun hne => Flags_mem_destinations.mp ?_, ?_⟩
  · by_contra hi
    obtain ⟨hregs, -⟩ := registerFrame i s s' h
    exact hne (flags_eq_of_getReg_eq (hregs .Flags (by decide) hi))
  · rintro rfl
    have hcases := compareFlags_cases s.flags (readStack s (s.sp - 4#15)) (readStack s (s.sp - 2#15))
    rw [← exec_cmp_flags h] at hcases
    omega

/-! ## Memory -/

/-- A word write stores to its two addresses alone (20_memory.md R65). -/
theorem readByte_writeWord_other {s : State} {a v b : Word} (h : b ∉ wordAddrs a) :
    readByte (writeWord s a v) b = readByte s b := by
  obtain ⟨hlo, hhi⟩ : b ≠ a ∧ b ≠ a + 1#16 := by simpa [wordAddrs] using h
  rw [writeWord, readByte_writeByte_other hhi, readByte_writeByte_other hlo]

/-- A stack word write stores to its two addresses alone (R75). -/
theorem readByte_writeStack_not_mem {s : State} {p : StackPtr} {v b : Word} (h : b ∉ stackWordAddrs p) :
    readByte (writeStack s p v) b = readByte s b := by
  obtain ⟨hlo, hhi⟩ : b ≠ stackAddr p ∧ b ≠ stackAddr (nextSP p) := by simpa [stackWordAddrs] using h
  exact readByte_writeStack_other hlo hhi

/-- A READ stores to its text's addresses and its zero byte's alone (44_io.md R203). -/
theorem readByte_storeText_not_mem {s : State} {text : List Byte} {later : List (List Byte)} {t b : Word}
    (hin : s.inputs = text :: later) (h : b ∉ readAddrs s t) :
    readByte (storeText { s with inputs := later } t text) b = readByte s b := by
  refine readByte_storeText_other fun k hk heq => h ?_
  simp only [readAddrs, hin, List.mem_map, List.mem_range]
  exact ⟨k, Nat.lt_succ_of_le hk, heq.symm⟩

/-- A register write leaves RAM alone. -/
theorem setReg_ram {s t : State} {d : Reg} {v : Word} (h : setReg s d v = .next t) : t.ram = s.ram := by
  obtain ⟨-, u, hu, hram, -⟩ | ⟨-, -, he⟩ | ⟨-, -, -, he⟩ := setReg_cases s d v
  · cases hu.symm.trans h
    exact hram
  · cases he.symm.trans h
    rfl
  · cases he.symm.trans h

theorem readByte_withSp (s : State) (p : StackPtr) (b : Word) : readByte (s.withSp p) b = readByte s b := rfl

/-- Equal RAM reads equal below 0x8000, whatever the mapped bank (R61). -/
theorem readByte_congr_ram {s t : State} (hram : t.ram = s.ram) {a : Word} (ha : a.toNat < ramSize) :
    readByte t a = readByte s a := by
  rw [readByte_ram ha, readByte_ram ha, hram]

/-- The effect of an instruction leaves every byte of RAM but those it stores to as it was. -/
theorem Body.readByte_of_not_mem {i : Instr} {s t : State} {b : Word} (h : Body s i t) (hb : b ∉ storedAddrs i s)
    (hram : b.toNat < ramSize) : readByte t b = readByte s b := by
  cases h with
  | imm _ ht => exact readByte_congr_ram (setReg_ram ht) hram
  | mov ht => exact readByte_congr_ram (setReg_ram ht) hram
  | pop _ ht => exact readByte_congr_ram (setReg_ram ht) hram
  | sta hg => exact readByte_writeWord_other (by simpa [storedAddrs, throughRegister, hg] using hb)
  | stb hg => exact readByte_writeWord_other (by simpa [storedAddrs, throughRegister, hg] using hb)
  | push => exact readByte_writeStack_not_mem hb
  | math hi =>
    have hb' : b ∉ stackWordAddrs (prevSP4 s.sp) := by
      obtain rfl | rfl | rfl | rfl | rfl | rfl | rfl := hi <;> exact hb
    rw [readByte_withSp, readByte_writeStack_not_mem hb']
  | not => rw [readByte_withSp, readByte_writeStack_not_mem hb]
  | read hi hin =>
    obtain rfl | ⟨r, g, rfl, hg, rfl⟩ := hi
    · exact readByte_storeText_not_mem hin hb
    · exact readByte_storeText_not_mem hin (by simpa [storedAddrs, throughRegister, hg] using hb)
  | nop | lda | ldb | cmp | jump | writeAddr | writeReg => rfl

/-- An instruction leaves every byte of RAM but those it stores to as it was (20_memory.md section 4). -/
theorem readByte_exec_of_ram {i : Instr} {s s' : State} {b : Word} (h : exec i s = .next s')
    (hb : b ∉ storedAddrs i s) (hram : b.toNat < ramSize) : readByte s' b = readByte s b := by
  obtain ⟨t, ht, rfl⟩ | ⟨-, t, rfl⟩ | ⟨t, -, -, rfl⟩ := exec_next_cases h
  · exact (readByte_congr_ram (advanceIP_kept i.length t).ram hram).trans (ht.readByte_of_not_mem hb hram)
  · rfl
  · rfl

/-- Settles O58: RAM by the stores of each instruction, and the window by the mapped bank's frame. -/
theorem memoryFrame : Obligations.MemoryFrame := by
  intro i s s' addr h hmem hwhere
  by_cases hram : addr.toNat < ramSize
  · exact readByte_exec_of_ram h hmem hram
  · obtain ⟨hbuf, -⟩ := bankFrame i s s' h (hwhere.resolve_left hram)
    rw [readByte_window hram, readByte_window hram, hbuf]

end Sys2Proof.Machine
end
